-- ==== Sys2Proof/Word.lean ====
section
/-! DEFINITION. Word.lean: the two bit-vector types the BDU uses.

Registers and command words are 32 bits wide, bytes of SRC, DST and the palette 8 (`00_scope.md` R6).
Strides, counts and addresses inside a command are exact natural numbers (R6, D6), so they are `Nat`,
never words. -/

namespace Sys2Proof

/-- One byte of SRC, of DST or of a palette channel. -/
abbrev Byte := BitVec 8

/-- One 32-bit register of the register window, or one command word (R6, R80). -/
abbrev Word := BitVec 32

end Sys2Proof
end

