-- ==== Sys2Proof/Config.lean ====
section
/-! DEFINITION. Config.lean: the values the spec fixes for every BDU, the values it leaves open, and the
values this model names for the state right after power-on. -/

namespace Sys2Proof.Config

/-- `PAL_CAP`: the number of palette RAM entries (`00_scope.md` R6, D5). -/
def palCap : Nat := 256

/-- The largest `SRC_LEN` and `DST_LEN` the spec admits, `2^32 - 1` (`00_scope.md` R6, D4). -/
def maxLen : Nat := 4294967295

/-- What a byte of SRC or DST that the sparse memory does not list reads as. SRC and DST are arrays in
which EVERY byte holds a value (R60, R61), so this is only the value a cell list leaves out: each array is
written by exactly one canonical cell list, whatever its bytes are.
DESIGN CHOICE (log 2). Unsafe only at `State.reset`, whose two spaces therefore hold zero bytes. -/
def unlistedByte : Byte := 0

/-- `SRC_LEN` in `State.reset`. The spec leaves it a model argument (R6); every other state may hold any
value. DESIGN CHOICE (log 1), unsafe for a statement about `State.reset` alone. -/
def resetSrcLen : Nat := maxLen

/-- `DST_LEN` in `State.reset`. DESIGN CHOICE (log 1), as `resetSrcLen`. -/
def resetDstLen : Nat := maxLen

/-- Free value: channel `c` of palette entry `i` as read by draw number `n`, for an entry that no load has
written since the last reset (`93_implementation_defined.md` U1, `10_state.md` R42). Nothing constrains it.
DESIGN CHOICE of form (log 3), safe. -/
opaque freePalByte : (n i c : Nat) → Byte

/-- Free value: the byte that DST address `a` holds after an IndexRange fault of a decode, at draw number `n`
(`60_exceptions.md` R206, U2). Nothing constrains it. DESIGN CHOICE of form (log 4), safe. -/
opaque freeDstByte : (n a : Nat) → Byte

end Sys2Proof.Config
end

