-- ==== Sys2Proof/Syntax.lean ====
section
/-! DEFINITION. Syntax.lean: the eleven commands of the "BDU command set, revision 1" (`30_encoding.md` R82),
one constructor per row of the opcode table. All other operands come from registers (R81, R85). -/

namespace Sys2Proof

/-- One command of the BDU. -/
inductive Instr where
  /-- EXTRACT with field index `K` (R107). The assembler's operand is a number; a word holds 0 to 255 (R91). -/
  | extract (k : Nat)
  /-- UNPACK (R108). -/
  | unpack
  /-- RDU16 (R105). -/
  | rdu16
  /-- RDU32 (R106). -/
  | rdu32
  /-- HDR_BIP (R161). -/
  | hdrBip
  /-- PLOAD_BMP (R121). -/
  | ploadBmp
  /-- PLOAD_BIP (R162). -/
  | ploadBip
  /-- LOOKUP (R122). -/
  | lookup
  /-- DECODE_BMP; `m` is the AND-mask enable `M` (R126). -/
  | decodeBmp (m : Bool)
  /-- DECODE_BIP (R165). -/
  | decodeBip
  /-- PINDEX (R141). -/
  | pindex
  deriving DecidableEq, Repr

end Sys2Proof
end

