-- ==== Sys2Proof/WellFormed.lean ====
section
/-! DEFINITION. WellFormed.lean: which command terms stand for a command word. -/

namespace Sys2Proof

/-- A command term is well formed when its operands fit the fields of the command word. The only operand
that can fail to is EXTRACT's field index: "An assembler refuses `EXTRACT k` with `k > 255`"
(`30_encoding.md` R91, R81). That AND-mask enable stands on DECODE_BMP alone holds by the type. -/
def Instr.wf : Instr → Bool
  | .extract k => decide (k ≤ 255)
  | .unpack | .rdu16 | .rdu32 | .hdrBip | .ploadBmp | .ploadBip | .lookup | .decodeBmp _ | .decodeBip
  | .pindex => true

end Sys2Proof
end

