-- ==== Sys2Proof/Decode.lean ====
section
/-! DEFINITION. Decode.lean: the command word's format, decoder and encoder (`30_encoding.md` R80 to R86).

A command word arrives whole, as the value of one 32-bit register write, so there is no byte order in it. -/

namespace Sys2Proof

/-! ## The fields of a command word (R80) -/

/-- `OP = w[7:0]`. -/
def opField (w : Word) : Nat := (w.extractLsb' 0 8).toNat

/-- `M = w[8]`. -/
def maskField (w : Word) : Bool := w.getLsbD 8

/-- `K = zext_32(w[23:16])` (R81). -/
def indexField (w : Word) : Nat := (w.extractLsb' 16 8).toNat

/-- `w[15:9] = 0` and `w[31:24] = 0` (R83, condition 2). -/
def reservedClear (w : Word) : Bool := w.extractLsb' 9 7 == 0 && w.extractLsb' 24 8 == 0

/-! ## Decoding -/

/-- Why a word is illegal. Every one of them is the error IllegalCommand (R83, R84). -/
inductive DecodeError where
  /-- OP is 0x00 or 0x0C to 0xFF (R84). -/
  | reservedOpcode
  /-- A bit of `w[15:9]` or `w[31:24]` is set (R83, condition 2). -/
  | reservedBits
  /-- M is set on a command other than DECODE_BMP (R83, condition 3). -/
  | strayMask
  /-- K is nonzero on a command other than EXTRACT (R83, condition 4). -/
  | strayIndex
  deriving DecidableEq, Repr

/-- A command without fields: both M and K must be clear (R83, conditions 3 and 4). -/
def decodePlain (w : Word) (i : Instr) : Except DecodeError Instr :=
  if maskField w then .error .strayMask
  else if indexField w ≠ 0 then .error .strayIndex
  else .ok i

/-- EXTRACT: K is its field index, M must be clear. -/
def decodeExtract (w : Word) : Except DecodeError Instr :=
  if maskField w then .error .strayMask else .ok (.extract (indexField w))

/-- DECODE_BMP: M is its AND-mask enable, K must be clear. -/
def decodeDecodeBmp (w : Word) : Except DecodeError Instr :=
  if indexField w ≠ 0 then .error .strayIndex else .ok (.decodeBmp (maskField w))

/-- The command that a word encodes, by the opcode map R82; an illegal word is rejected by name. -/
def decode (w : Word) : Except DecodeError Instr :=
  if !reservedClear w then .error .reservedBits
  else match opField w with
    | 0x01 => decodeExtract w
    | 0x02 => decodePlain w .unpack
    | 0x03 => decodePlain w .rdu16
    | 0x04 => decodePlain w .rdu32
    | 0x05 => decodePlain w .hdrBip
    | 0x06 => decodePlain w .ploadBmp
    | 0x07 => decodePlain w .ploadBip
    | 0x08 => decodePlain w .lookup
    | 0x09 => decodeDecodeBmp w
    | 0x0A => decodePlain w .decodeBip
    | 0x0B => decodePlain w .pindex
    | _ => .error .reservedOpcode

/-! ## Encoding -/

/-- The command word of a well-formed command, by the expansions of R91. -/
def encode : Instr → Word
  | .extract k => BitVec.ofNat 32 (k <<< 16 ||| 0x01)
  | .unpack => 0x02
  | .rdu16 => 0x03
  | .rdu32 => 0x04
  | .hdrBip => 0x05
  | .ploadBmp => 0x06
  | .ploadBip => 0x07
  | .lookup => 0x08
  | .decodeBmp false => 0x09
  | .decodeBmp true => 0x109
  | .decodeBip => 0x0A
  | .pindex => 0x0B

/-- A word is LEGAL by the four conditions of R83, written from that rule and not from `decode`. -/
abbrev LegalWord (w : Word) : Prop :=
  (1 ≤ w.toNat % 256 ∧ w.toNat % 256 ≤ 0x0B) ∧
  (w.extractLsb 15 9 = 0 ∧ w.extractLsb 31 24 = 0) ∧
  (w.toNat % 256 ≠ 0x09 → w.getLsbD 8 = false) ∧
  (w.toNat % 256 ≠ 0x01 → w.extractLsb 23 16 = 0)

/-! ## The host's interface to the decoder -/

/-- The command word of an instruction given as a number of `nbits` bits: the bits above `nbits` are zero,
and no command is longer than one word (R86). -/
def tableWord (nbits w : Nat) : Word := BitVec.ofNat 32 (w % 2 ^ nbits)

/-- The instruction the decoder reads from a table word. -/
def decodeTableWord (nbits w : Nat) : Option Instr :=
  match decode (tableWord nbits w) with
  | .ok i => some i
  | .error _ => none

end Sys2Proof
end

