-- ==== Sys2Proof/Machine/State.lean ====
section
/-! DEFINITION. Machine/State.lean: everything the spec gives the machine, as plain data: the Block's registers
and palette RAM, the two byte spaces, and the Host's program with its position (`00_scope.md` R8,
`10_state.md`). -/

namespace Sys2Proof.Machine

/-! ## Errors -/

/-- The error codes of `60_exceptions.md` R200 by name. The Block never raises the two that R201 reserves
for a model of the whole system. -/
inductive ErrorCode where
  | typeMismatch | formatError | unsupportedDepth | strideMismatch | truncatedData | indexRange
  | illegalCommand | dstOverflow
  deriving DecidableEq, Repr

/-! ## The register window -/

/-- The 18 registers of the register window (`10_state.md` R21). -/
inductive Reg where
  | cmd | status | ctrl | errInfo | srcAddr | srcCnt | dstAddr | depth | width | height | stride
  | palAddr | palLen | pixAddr | maskAddr | arg | result | transp
  deriving DecidableEq, Repr

/-- What the register window stores. CMD and CTRL hold nothing (R46). STATUS stores only its field ERR and
TRANSP only its bit 0: their other bits read 0 (R23, R39). -/
structure RegFile where
  /-- `STATUS[3:0]` = ERR (R23). -/
  err : BitVec 4
  /-- ERRINFO (R24). -/
  errInfo : Word
  /-- SRC_ADDR (R26). -/
  srcAddr : Word
  /-- SRC_CNT (R27). -/
  srcCnt : Word
  /-- DST_ADDR (R28). -/
  dstAddr : Word
  /-- DEPTH (R29). -/
  depth : Word
  /-- WIDTH (R30). -/
  width : Word
  /-- HEIGHT (R31). -/
  height : Word
  /-- STRIDE (R32). -/
  stride : Word
  /-- PAL_ADDR (R33). -/
  palAddr : Word
  /-- PAL_LEN (R34). -/
  palLen : Word
  /-- PIX_ADDR (R35). -/
  pixAddr : Word
  /-- MASK_ADDR (R36). -/
  maskAddr : Word
  /-- ARG (R37). -/
  arg : Word
  /-- RESULT (R38). -/
  result : Word
  /-- `TRANSP[0]` (R39). -/
  transp : BitVec 1
  deriving DecidableEq, Repr

/-- Every register is 0 after reset (`10_state.md` R46). -/
def RegFile.reset : RegFile where
  err := 0
  errInfo := 0
  srcAddr := 0
  srcCnt := 0
  dstAddr := 0
  depth := 0
  width := 0
  height := 0
  stride := 0
  palAddr := 0
  palLen := 0
  pixAddr := 0
  maskAddr := 0
  arg := 0
  result := 0
  transp := 0

/-! ## Palette RAM and byte spaces -/

/-- A palette entry, the 4-tuple `(r, g, b, a)` of bytes (`10_state.md` R41). -/
structure Color where
  r : Byte
  g : Byte
  b : Byte
  a : Byte
  deriving DecidableEq, Repr

/-- The palette RAM `PAL[0..255]` (R41): the entries written since the last reset, by rising index. An index
that is not listed is an entry no load has written since the last reset; its value is unspecified (R42, U1). -/
abbrev Palette := List (Nat × Color)

/-- A byte space: its cells by rising address, without the cells that hold `Config.unlistedByte`. -/
abbrev Memory := List Host.Cell

/-! ## The Host -/

/-- One operation of the outside world on the Block, in program order (`30_encoding.md` R90, R91).
An access carries its width in bits, so that the accesses `10_state.md` R20 refuses can be written down. -/
inductive HostOp where
  /-- A write of `value` to the register window at a byte offset: the line `wr NAME, imm`. -/
  | wr (offset width : Nat) (value : Word)
  /-- A read of the register window at a byte offset: the line `rd NAME`. -/
  | rd (offset width : Nat)
  /-- The line `wsrc addr, b0 b1 ... bk`, which writes at least one byte. -/
  | wsrc (addr : Nat) (b0 : Byte) (bs : List Byte)
  /-- Hardware reset, asserted from outside (`70_reset_and_hazards.md` R240). -/
  | hardReset
  deriving DecidableEq, Repr

/-! ## Stops -/

/-- Why the machine stops although the spec gives the operation a form. No command raises one. -/
inductive Fault where
  /-- Raised by the Host's `wsrc` alone, when it names an address at or above SRC_LEN: SRC has no such byte
  (`20_memory.md` R60). The spec gives that write no effect. Safe: nothing after it can be proved. -/
  | srcWriteOutside
  deriving DecidableEq, Repr

/-- Why the model gives an operation no step. -/
inductive Refusal where
  /-- Raised by an arm of `exec` whose instruction has no meaning yet (none). Safe. -/
  | notModelled (mnemonic : String)
  /-- Raised by a register-port access that is not 32 bits wide (`10_state.md` R20, U13). Safe. -/
  | accessWidth
  /-- Raised by a register-port access whose offset is not a multiple of 4 (R20, U13). Safe. -/
  | misaligned
  /-- Raised by a register-port access at an offset with no register (R20, U13). Safe. -/
  | unmappedOffset
  deriving DecidableEq, Repr

/-! ## The state -/

/-- The whole machine between two steps. -/
structure State where
  /-- The register window (R21 to R40). -/
  regs : RegFile
  /-- The palette RAM (R41). -/
  pal : Palette
  /-- The source space SRC (`20_memory.md` R60). -/
  src : Memory
  /-- `SRC_LEN`, a parameter of the platform that no step changes (`00_scope.md` R6). -/
  srcLen : Nat
  /-- The destination space DST (R61). -/
  dst : Memory
  /-- `DST_LEN`, a parameter of the platform that no step changes (R6). -/
  dstLen : Nat
  /-- The Host's program, a finite list of operations (`10_state.md` R44). -/
  program : List HostOp
  /-- The program position: the index of the next operation (R44). It lives in the Host. -/
  pos : Nat
  /-- The values read by the program's `rd` operations, oldest first (R90, R252). -/
  observed : List Word
  /-- The MODEL'S OWN counter of draws of free values (log 3, log 4); the spec has no such state. -/
  draws : Nat
  deriving DecidableEq, Repr

/-- The state after hardware reset on a platform with the given two spaces and program: every register 0, no
palette entry written (`10_state.md` R46), SRC and DST as the platform left them. -/
def State.powerOn (src : Memory) (srcLen : Nat) (dst : Memory) (dstLen : Nat) (program : List HostOp) :
    State where
  regs := RegFile.reset
  pal := []
  src := src
  srcLen := srcLen
  dst := dst
  dstLen := dstLen
  program := program
  pos := 0
  observed := []
  draws := 0

/-- The machine right after reset with nothing placed: no program, and spaces of the largest size the spec
admits that list no cell. The sizes, the spaces' bytes and the draw counter are DESIGN CHOICES
(logs 1, 2, 3). -/
def State.reset : State := State.powerOn [] Config.resetSrcLen [] Config.resetDstLen []

end Sys2Proof.Machine
end

