-- ==== Sys2Proof/Machine/Flags.lean ====
section
/-! DEFINITION. Machine/Flags.lean: the status computations. The Block has no condition codes or flags
besides `STATUS.ERR` (`10_state.md` R43); TRANSP is a stored header bit (R39). -/

namespace Sys2Proof.Machine

/-- The number of each error in `STATUS[3:0]` (`60_exceptions.md` R200). -/
def ErrorCode.code : ErrorCode → BitVec 4
  | .typeMismatch => 1
  | .formatError => 2
  | .unsupportedDepth => 3
  | .strideMismatch => 4
  | .truncatedData => 5
  | .indexRange => 6
  | .illegalCommand => 7
  | .dstOverflow => 8

/-- The Block is halted while `STATUS.ERR != 0` (R205). -/
def State.halted (s : State) : Bool := s.regs.err != 0

/-- STATUS as the register port reads it: ERR in bits 3 to 0, the other bits 0 (R23). -/
def RegFile.statusWord (r : RegFile) : Word := r.err.zeroExtend 32

/-- TRANSP as the register port reads it: the flag in bit 0, the other bits 0 (R39). -/
def RegFile.transpWord (r : RegFile) : Word := r.transp.zeroExtend 32

/-- The transparency flag from the header's u16 at 0x0E: 1 iff it is nonzero (R39, R161). -/
def transpFlag (tf : Nat) : BitVec 1 := if tf ≠ 0 then 1 else 0

end Sys2Proof.Machine
end

