-- ==== Sys2Proof/Machine/Ops.lean ====
section
/-! DEFINITION. Machine/Ops.lean: the named operations over the byte spaces, the palette RAM and the register
window, and taking an error. -/

namespace Sys2Proof.Machine

/-! ## Byte spaces (`20_memory.md`) -/

/-- The canonical form: addresses strictly rising, and no cell equal to what an unlisted address reads as. -/
abbrev Memory.wf (m : Memory) : Prop :=
  m.Pairwise (fun c d => c.1 < d.1) ∧ ∀ c ∈ m, c.2 ≠ Config.unlistedByte

/-- No cell at or above `len`: the space has the addresses `0 .. len-1` only (R60, R61). -/
abbrev Memory.below (m : Memory) (len : Nat) : Prop := ∀ c ∈ m, c.1 < len

/-- The byte at an address. -/
def Memory.read (m : Memory) (a : Nat) : Byte :=
  match m with
  | [] => Config.unlistedByte
  | c :: rest => if c.1 = a then c.2 else Memory.read rest a

/-- The cells of consecutive bytes from address `a` on, without those an unlisted address stands for. -/
def Memory.cells (a : Nat) : List Byte → Memory
  | [] => []
  | b :: bs => if b = Config.unlistedByte then Memory.cells (a + 1) bs else (a, b) :: Memory.cells (a + 1) bs

/-- Write consecutive bytes from address `a` on: `MemWrite(a + j, 1, bs[j])` for every `j` (R12). -/
def Memory.writeBlock (m : Memory) (a : Nat) (bs : List Byte) : Memory :=
  m.filter (fun c => c.1 < a) ++ Memory.cells a bs ++ m.filter (fun c => a + bs.length ≤ c.1)

/-- `SrcByte(a)` (`00_scope.md` R12). -/
def State.srcByte (s : State) (a : Nat) : Byte := s.src.read a

/-- `SrcBytes(a, n)` (R12). -/
def State.srcBytes (s : State) (a n : Nat) : List Byte := (List.range n).map fun j => s.srcByte (a + j)

/-- The number that bytes make in little-endian order: the sum of `bs[j] << (8*j)`, byte by byte (R63). -/
def littleEndian : List Byte → Nat
  | [] => 0
  | b :: bs => b.toNat + 256 * littleEndian bs

/-- `MemRead(a, n)`: the little-endian value of `n` bytes of SRC (R12, R63). -/
def State.memRead (s : State) (a n : Nat) : Nat := littleEndian (s.srcBytes a n)

/-- One byte of DST. No command reads it; the Host does (R61). -/
def State.dstByte (s : State) (a : Nat) : Byte := s.dst.read a

/-- `SrcOK(a, n)` (R12, R64), in exact arithmetic. -/
abbrev State.srcOK (s : State) (a n : Nat) : Prop := a + n ≤ s.srcLen

/-- `DstOK(a, n)` (R12, R64). -/
abbrev State.dstOK (s : State) (a n : Nat) : Prop := a + n ≤ s.dstLen

/-- Write a block of DST. -/
def State.writeDst (s : State) (a : Nat) (bs : List Byte) : State := { s with dst := s.dst.writeBlock a bs }

/-! ## Palette RAM (`10_state.md` R41, R42) -/

/-- The canonical form of the palette: indices strictly rising and below `PAL_CAP`. -/
abbrev Palette.wf (p : Palette) : Prop :=
  p.Pairwise (fun c d => c.1 < d.1) ∧ ∀ c ∈ p, c.1 < Config.palCap

/-- Entry `i`, if a load has written it since the last reset. -/
def Palette.entry? (p : Palette) (i : Nat) : Option Color :=
  match p with
  | [] => none
  | c :: rest => if c.1 = i then some c.2 else Palette.entry? rest i

/-- The cells of consecutive entries from index `i` on. -/
def Palette.cells (i : Nat) : List Color → Palette
  | [] => []
  | c :: cs => (i, c) :: Palette.cells (i + 1) cs

/-- Write the entries `0 .. n-1` with the first `n = min(cs.length, 256)` colors; the others stay. -/
def Palette.load (p : Palette) (cs : List Color) : Palette :=
  Palette.cells 0 (cs.take Config.palCap) ++ p.filter (fun c => cs.length ≤ c.1)

/-- An unspecified entry's value at draw `n`, a free value (U1, log 3). -/
def Color.free (n i : Nat) : Color where
  r := Config.freePalByte n i 0
  g := Config.freePalByte n i 1
  b := Config.freePalByte n i 2
  a := Config.freePalByte n i 3

/-- `PAL[i]` as a command reads it. An entry that no load has written since the last reset is a free value, the
same throughout one command (R66) and drawn anew by the next one (log 3). -/
def State.palRead (s : State) (i : Nat) : Color :=
  match s.pal.entry? i with
  | some c => c
  | none => Color.free s.draws i

/-- A command that has drawn from the free values leaves the draw counter one higher. -/
def State.drawn (s : State) : State := { s with draws := s.draws + 1 }

/-! ## Register window (`10_state.md` R20 to R40) -/

/-- The byte offset of a register (R21). -/
def Reg.offset : Reg → Nat
  | .cmd => 0x00
  | .status => 0x04
  | .ctrl => 0x08
  | .errInfo => 0x0C
  | .srcAddr => 0x10
  | .srcCnt => 0x14
  | .dstAddr => 0x18
  | .depth => 0x1C
  | .width => 0x20
  | .height => 0x24
  | .stride => 0x28
  | .palAddr => 0x2C
  | .palLen => 0x30
  | .pixAddr => 0x34
  | .maskAddr => 0x38
  | .arg => 0x3C
  | .result => 0x40
  | .transp => 0x44

/-- The 18 registers in offset order. -/
def Reg.all : List Reg :=
  [.cmd, .status, .ctrl, .errInfo, .srcAddr, .srcCnt, .dstAddr, .depth, .width, .height, .stride, .palAddr,
   .palLen, .pixAddr, .maskAddr, .arg, .result, .transp]

/-- The registers whose access is RW (R21): a register-port write stores to them. -/
def Reg.writable : Reg → Bool
  | .cmd | .status | .ctrl | .errInfo | .result | .transp => false
  | .srcAddr | .srcCnt | .dstAddr | .depth | .width | .height | .stride | .palAddr | .palLen | .pixAddr
  | .maskAddr | .arg => true

/-- The register at a byte offset, if the window has one there. -/
def Reg.at? (offset : Nat) : Option Reg := Reg.all.find? fun r => r.offset == offset

/-- What a register-port read of a register answers. CMD and CTRL read 0 (R22, R25). -/
def RegFile.get (f : RegFile) : Reg → Word
  | .cmd => 0
  | .status => f.statusWord
  | .ctrl => 0
  | .errInfo => f.errInfo
  | .srcAddr => f.srcAddr
  | .srcCnt => f.srcCnt
  | .dstAddr => f.dstAddr
  | .depth => f.depth
  | .width => f.width
  | .height => f.height
  | .stride => f.stride
  | .palAddr => f.palAddr
  | .palLen => f.palLen
  | .pixAddr => f.pixAddr
  | .maskAddr => f.maskAddr
  | .arg => f.arg
  | .result => f.result
  | .transp => f.transpWord

/-- What a register-port write stores. A write to a read-only register is accepted and ignored (R20). What a
write to CMD or CTRL does is not a store: `Machine/Port.lean` gives it. -/
def RegFile.put (f : RegFile) (v : Word) : Reg → RegFile
  | .srcAddr => { f with srcAddr := v }
  | .srcCnt => { f with srcCnt := v }
  | .dstAddr => { f with dstAddr := v }
  | .depth => { f with depth := v }
  | .width => { f with width := v }
  | .height => { f with height := v }
  | .stride => { f with stride := v }
  | .palAddr => { f with palAddr := v }
  | .palLen => { f with palLen := v }
  | .pixAddr => { f with pixAddr := v }
  | .maskAddr => { f with maskAddr := v }
  | .arg => { f with arg := v }
  | .cmd | .status | .ctrl | .errInfo | .result | .transp => f

/-- `reg[RESULT] <- v`, that is `v mod 2^32` (`00_scope.md` R11). -/
def State.setResult (s : State) (v : Nat) : State :=
  { s with regs := { s.regs with result := BitVec.ofNat 32 v } }

/-! ## Taking an error, and leaving the halted state (`60_exceptions.md`) -/

/-- `raise E(w)`: set `STATUS.ERR` to the error's code and ERRINFO to the command word, and nothing else (R204).
The Block has no vector, no handler, no saved program counter and no mode. -/
def State.raise (s : State) (e : ErrorCode) (w : Word) : State :=
  { s with regs := { s.regs with err := e.code, errInfo := w } }

/-- One check of a command: `if not p: raise e(w)`, else go on with the rest of the command (R203). -/
@[inline] def State.require (s : State) (p : Prop) [Decidable p] (e : ErrorCode) (i : Instr)
    (rest : Host.Outcome State Fault Refusal) : Host.Outcome State Fault Refusal :=
  if p then rest else .next (s.raise e (encode i))

/-- After an IndexRange in a decode every byte of its DST range is unspecified: a free value each (R206, U2). -/
def State.scrambleDst (s : State) (a n : Nat) : State :=
  (s.writeDst a ((List.range n).map fun j => Config.freeDstByte s.draws (a + j))).drawn

/-- Reset, hardware or soft: every register 0 and every palette entry unspecified; SRC and DST stay
(`70_reset_and_hazards.md` R240, R241; `10_state.md` R46). It is the only way out of the halted state (R205):
there is no return from an error. -/
def State.blockReset (s : State) : State := { s with regs := RegFile.reset, pal := [] }

end Sys2Proof.Machine
end

