-- ==== Sys2Proof/Machine/Operands.lean ====
section
/-! DEFINITION. Machine/Operands.lean: the shared functions of the command rules (`00_scope.md` R14) and the
operands the commands take from the registers (`30_encoding.md` R81, R85). -/

namespace Sys2Proof.Machine

/-! ## Depths, fields and rows (`40_primitives.md`) -/

/-- `validDepth(d)` (R100). -/
abbrev validDepth (d : Nat) : Prop := d = 1 ∨ d = 2 ∨ d = 4 ∨ d = 8

/-- `field(b, d, k)`: the sub-byte bitfield extractor, most significant field first (R101). -/
def field (b : Byte) (d k : Nat) : Nat := (b.toNat >>> (8 - d * (k + 1))) &&& (2 ^ d - 1)

/-- `unpack(bs, d)`: the bit-depth array unpacker (R102). -/
def unpack (bs : List Byte) (d : Nat) : List Nat :=
  (List.range (bs.length * 8 / d)).map fun i => field (bs.getD (i / (8 / d)) 0) d (i % (8 / d))

/-- `bmpStride(w, d)`: the stored row length of a BMP (R103). -/
def bmpStride (w d : Nat) : Nat := (d * w + 31) / 32 * 4

/-- `bipRowLen(w, d)`: the row length of a bip bitmap (R104). -/
def bipRowLen (w d : Nat) : Nat := (w * d + 7) / 8

/-- An index as the byte that is written for it. -/
def indexByte (i : Nat) : Byte := BitVec.ofNat 8 i

/-- The first `w` indices of the `len`-byte row at SRC address `a`; the rest is padding (R110, D27). -/
def State.rowIndices (s : State) (a len d w : Nat) : List Nat := (unpack (s.srcBytes a len) d).take w

/-! ## The binarizing threshold (`43_bip.md`) -/

/-- `bin(v) = (v > 128)` (R160). -/
def bin (v : Byte) : Bool := decide (v.toNat > 128)

/-- `bin8(v)`: 0xFF or 0x00 (R160). -/
def bin8 (v : Byte) : Byte := if bin v then 0xFF else 0x00

/-- `bipByte((r, g, b, a))`: a BipColor as a byte, r in bit 0 to a in bit 3 (R166). -/
def bipByte (c : Color) : Byte :=
  BitVec.ofNat 8 ((bin c.r).toNat + (bin c.g).toNat * 2 + (bin c.b).toNat * 4 + (bin c.a).toNat * 8)

/-! ## Depth selection (`42_palette_indexer.md`) -/

/-- `sel(k)`: the bit depth for a palette of `k` colors (R142). -/
def sel (k : Nat) : Nat := if k ≤ 2 then 1 else if k ≤ 16 then 4 else if k ≤ 256 then 8 else 24

/-! ## Operands from registers (`30_encoding.md` R85) -/

/-- `ARG[7:0]`; `ARG[31:8]` is ignored (`10_state.md` R37, D29). -/
def State.argByte (s : State) : Byte := s.regs.arg.extractLsb' 0 8

/-- PLOAD_BMP's effective color count: PAL_LEN, or `2^DEPTH` where PAL_LEN is 0 (R121, D35). -/
def State.colorCount (s : State) : Nat :=
  if s.regs.palLen.toNat = 0 then 2 ^ s.regs.depth.toNat else s.regs.palLen.toNat

/-- The four bytes at a SRC address in the order r, g, b, a (R140, R162). -/
def State.rgbaAt (s : State) (a : Nat) : Color where
  r := s.srcByte a
  g := s.srcByte (a + 1)
  b := s.srcByte (a + 2)
  a := s.srcByte (a + 3)

/-- The four bytes at a SRC address as a BMP palette entry: blue, green, red, fourth byte (R121). -/
def State.bgrxAt (s : State) (a : Nat) : Color where
  r := s.srcByte (a + 2)
  g := s.srcByte (a + 1)
  b := s.srcByte a
  a := s.srcByte (a + 3)

/-- Each channel through `bin8` (R162). -/
def Color.binarized (c : Color) : Color where
  r := bin8 c.r
  g := bin8 c.g
  b := bin8 c.b
  a := bin8 c.a

/-- The palette entries `0 .. min(c, 256) - 1` that a load reads from SRC address `p` on, each by `entryAt`. -/
def loadedColors (entryAt : Nat → Color) (p c : Nat) : List Color :=
  (List.range (min c Config.palCap)).map fun i => entryAt (p + 4 * i)

end Sys2Proof.Machine
end

