-- ==== Sys2Proof/Machine/Bip.lean ====
section
/-! DEFINITION. Machine/Bip.lean: the bip device bitmap commands HDR_BIP, PLOAD_BIP and DECODE_BIP (`43_bip.md`). -/

namespace Sys2Proof.Machine

/-- HDR_BIP (R161). The magic is neither read nor checked (R167). It writes PAL_LEN and loads no entry, as R161 and
`10_state.md` R34 say, although R42, which cites R161 nowhere, says that a completed command leaves every entry
below PAL_LEN written: an entry so made readable is unspecified, a free value (DEDUCED, log 8, safe). -/
def execHdrBip (s : State) : Host.Outcome State Fault Refusal :=
  let B := s.regs.srcAddr.toNat
  let pl := s.memRead (B + 0xC) 2
  s.require (s.srcOK B 0x10) .truncatedData .hdrBip <|
  s.require (s.srcOK (B + 0x10) (4 * pl)) .truncatedData .hdrBip <|
  .next { s with regs := { s.regs with
    width := BitVec.ofNat 32 (s.memRead (B + 0x4) 2)
    height := BitVec.ofNat 32 (s.memRead (B + 0x6) 2)
    stride := BitVec.ofNat 32 (s.memRead (B + 0x8) 2)
    depth := BitVec.ofNat 32 (s.memRead (B + 0xA) 2)
    palLen := BitVec.ofNat 32 pl
    transp := transpFlag (s.memRead (B + 0xE) 2)
    palAddr := BitVec.ofNat 32 (B + 0x10)
    pixAddr := BitVec.ofNat 32 (B + 0x10 + 4 * pl) } }

/-- PLOAD_BIP (R162): no default count, and PAL_LEN stays. -/
def execPloadBip (s : State) : Host.Outcome State Fault Refusal :=
  let p := s.regs.palAddr.toNat
  let c := s.regs.palLen.toNat
  s.require (s.srcOK p (4 * c)) .truncatedData .ploadBip <|
  .next { s with pal := s.pal.load (loadedColors (fun a => (s.rgbaAt a).binarized) p c) }

/-- The indices of a bip bitmap stored top-down at `a`, each row `S` bytes (R163). -/
def State.topDownIndices (s : State) (a S d W H : Nat) : List Nat :=
  (List.range H).flatMap fun y => s.rowIndices (a + y * S) S d W

/-- DECODE_BIP (R165). The stride is checked only where there is a row (R164). -/
def execDecodeBip (s : State) : Host.Outcome State Fault Refusal :=
  let d := s.regs.depth.toNat
  let W := s.regs.width.toNat
  let H := s.regs.height.toNat
  let S := s.regs.stride.toNat
  let P := s.regs.pixAddr.toNat
  let o := s.regs.dstAddr.toNat
  s.require (validDepth d) .unsupportedDepth .decodeBip <|
  s.require (H > 0 → bipRowLen W d = S) .strideMismatch .decodeBip <|
  s.require (s.srcOK P (S * H)) .truncatedData .decodeBip <|
  s.require (s.dstOK o (W * H)) .dstOverflow .decodeBip <|
    let idx := s.topDownIndices P S d W H
    if ∀ i ∈ idx, i < s.regs.palLen.toNat then
      .next ((s.writeDst o (idx.map fun i => bipByte (s.palRead i))).setResult (W * H)).drawn
    else .next ((s.scrambleDst o (W * H)).raise .indexRange (encode .decodeBip))

end Sys2Proof.Machine
end

