-- ==== Sys2Proof/Machine/BmpPalette.lean ====
section
/-! DEFINITION. Machine/BmpPalette.lean: the decode direction of the BMP palette indexer, PLOAD_BMP, LOOKUP and
DECODE_BMP (`41_bmp_palette.md`). -/

namespace Sys2Proof.Machine

/-- PLOAD_BMP (R121): all `4c` bytes are bounds-checked, the first 256 entries are stored (D5). -/
def execPloadBmp (s : State) : Host.Outcome State Fault Refusal :=
  let c := s.colorCount
  let p := s.regs.palAddr.toNat
  s.require (validDepth s.regs.depth.toNat) .unsupportedDepth .ploadBmp <|
  s.require (s.srcOK p (4 * c)) .truncatedData .ploadBmp <|
  .next { s with
    pal := s.pal.load (loadedColors s.bgrxAt p c)
    regs := { s.regs with palLen := BitVec.ofNat 32 c } }

/-- RESULT of LOOKUP: the entry packed with red in the low byte (R122). -/
def Color.packed (c : Color) : Nat :=
  c.r.toNat ||| c.g.toNat <<< 8 ||| c.b.toNat <<< 16 ||| c.a.toNat <<< 24

/-- LOOKUP (R122). -/
def execLookup (s : State) : Host.Outcome State Fault Refusal :=
  let i := s.argByte.toNat
  s.require (i < s.regs.palLen.toNat) .indexRange .lookup <|
  .next (s.setResult (s.palRead i).packed).drawn

/-- The indices of a row-aligned bitmap stored bottom-up at `a` with `W` pixels of depth `d` in each of `H` rows,
in output order: output row `y` is stored row `H - 1 - y` (R125, R126). -/
def State.bottomUpIndices (s : State) (a d W H : Nat) : List Nat :=
  (List.range H).flatMap fun y =>
    s.rowIndices (a + (H - 1 - y) * bmpStride W d) (bmpStride W d) d W

/-- The AND-mask bits in output order; without a mask every bit is clear (R123, R126). -/
def State.maskBits (s : State) (m : Bool) (q W H : Nat) : List Nat :=
  if m then s.bottomUpIndices q 1 W H else List.replicate (W * H) 0

/-- The four DST bytes of one output pixel. The palette's fourth byte is ignored, and a set AND bit
forces alpha to 0 (R123). -/
def bmpPixel (c : Color) (maskBit : Nat) : List Byte :=
  [c.r, c.g, c.b, if maskBit = 1 then 0 else 255]

/-- DECODE_BMP (R126) with mask bit M. -/
def execDecodeBmp (m : Bool) (s : State) : Host.Outcome State Fault Refusal :=
  let d := s.regs.depth.toNat
  let W := s.regs.width.toNat
  let H := s.regs.height.toNat
  let P := s.regs.pixAddr.toNat
  let Q := s.regs.maskAddr.toNat
  let o := s.regs.dstAddr.toNat
  s.require (validDepth d) .unsupportedDepth (.decodeBmp m) <|
  s.require (s.srcOK P (bmpStride W d * H)) .truncatedData (.decodeBmp m) <|
  s.require (m = true → s.srcOK Q (bmpStride W 1 * H)) .truncatedData (.decodeBmp m) <|
  s.require (s.dstOK o (4 * W * H)) .dstOverflow (.decodeBmp m) <|
    let idx := s.bottomUpIndices P d W H
    if ∀ i ∈ idx, i < s.regs.palLen.toNat then
      let pixels := (idx.zip (s.maskBits m Q W H)).flatMap fun p => bmpPixel (s.palRead p.1) p.2
      .next ((s.writeDst o pixels).setResult (W * H)).drawn
    else .next ((s.scrambleDst o (4 * W * H)).raise .indexRange (encode (.decodeBmp m)))

end Sys2Proof.Machine
end

