-- ==== Sys2Proof/Machine/Indexer.lean ====
section
/-! DEFINITION. Machine/Indexer.lean: the encode direction of the BMP palette indexer, PINDEX
(`42_palette_indexer.md`). -/

namespace Sys2Proof.Machine

/-- The pixels `0 .. n-1` of the grid at SRC address `a`, in increasing address order (R140). -/
def State.gridPixels (s : State) (a n : Nat) : List Color := (List.range n).map fun p => s.rgbaAt (a + 4 * p)

/-- The palette scan of R141 from the colors `L` found so far: the distinct colors in first-seen order, and the
index of each further pixel. -/
def scanPalette (L : List Color) : List Color → List Color × List Nat
  | [] => (L, [])
  | c :: cs =>
    match L.findIdx? (fun x => x == c) with
    | some j => let r := scanPalette L cs; (r.1, j :: r.2)
    | none => let r := scanPalette (L ++ [c]) cs; (r.1, L.length :: r.2)

/-- PINDEX (R141). More than 256 colors: DEPTH 24, PAL_LEN and RESULT 257, no index written (R143). -/
def execPindex (s : State) : Host.Outcome State Fault Refusal :=
  let a := s.regs.srcAddr.toNat
  let o := s.regs.dstAddr.toNat
  let N := s.regs.width.toNat * s.regs.height.toNat
  s.require (s.srcOK a (4 * N)) .truncatedData .pindex <|
  s.require (s.dstOK o N) .dstOverflow .pindex <|
    let r := scanPalette [] (s.gridPixels a N)
    let k := r.1.length
    let t := { s with pal := s.pal.load r.1 }
    if k ≤ 256 then
      .next { (t.writeDst o (r.2.map indexByte)) with regs := { s.regs with
        depth := BitVec.ofNat 32 (sel k)
        palLen := BitVec.ofNat 32 k
        result := BitVec.ofNat 32 k } }
    else
      .next { t with regs := { s.regs with
        depth := BitVec.ofNat 32 24
        palLen := BitVec.ofNat 32 257
        result := BitVec.ofNat 32 257 } }

end Sys2Proof.Machine
end

