-- ==== Sys2Proof/Machine/Primitives.lean ====
section
/-! DEFINITION. Machine/Primitives.lean: the byte-buffer primitives EXTRACT, UNPACK, RDU16 and RDU32
(`40_primitives.md`). -/

namespace Sys2Proof.Machine

/-- EXTRACT (R107). The depth is checked before the range of K (`60_exceptions.md` R203). -/
def execExtract (k : Nat) (s : State) : Host.Outcome State Fault Refusal :=
  let d := s.regs.depth.toNat
  s.require (validDepth d) .unsupportedDepth (.extract k) <|
  s.require (k < 8 / d) .illegalCommand (.extract k) <|
  .next (s.setResult (field s.argByte d k))

/-- UNPACK (R108): one byte of DST per field of the row. -/
def execUnpack (s : State) : Host.Outcome State Fault Refusal :=
  let d := s.regs.depth.toNat
  let a := s.regs.srcAddr.toNat
  let c := s.regs.srcCnt.toNat
  let o := s.regs.dstAddr.toNat
  let n := c * (8 / d)
  s.require (validDepth d) .unsupportedDepth .unpack <|
  s.require (s.srcOK a c) .truncatedData .unpack <|
  s.require (s.dstOK o n) .dstOverflow .unpack <|
  .next ((s.writeDst o ((unpack (s.srcBytes a c) d).map indexByte)).setResult n)

/-- RDU16 (R105): any byte address, little-endian, zero-extended. -/
def execRdu16 (s : State) : Host.Outcome State Fault Refusal :=
  let a := s.regs.srcAddr.toNat
  s.require (s.srcOK a 2) .truncatedData .rdu16 <|
  .next (s.setResult (s.memRead a 2))

/-- RDU32 (R106): any byte address, little-endian. -/
def execRdu32 (s : State) : Host.Outcome State Fault Refusal :=
  let a := s.regs.srcAddr.toNat
  s.require (s.srcOK a 4) .truncatedData .rdu32 <|
  .next (s.setResult (s.memRead a 4))

end Sys2Proof.Machine
end

