-- ==== Sys2Proof/Machine/Dispatch.lean ====
section
/-! DEFINITION. Machine/Dispatch.lean: one arm per command (`30_encoding.md` R82). -/

namespace Sys2Proof.Machine

def exec (i : Instr) (s : State) : Host.Outcome State Fault Refusal :=
  match i with
  | .extract k => Sys2Proof.Machine.execExtract k s
  | .unpack => Sys2Proof.Machine.execUnpack s
  | .rdu16 => Sys2Proof.Machine.execRdu16 s
  | .rdu32 => Sys2Proof.Machine.execRdu32 s
  | .hdrBip => Sys2Proof.Machine.execHdrBip s
  | .ploadBmp => Sys2Proof.Machine.execPloadBmp s
  | .ploadBip => Sys2Proof.Machine.execPloadBip s
  | .lookup => Sys2Proof.Machine.execLookup s
  | .decodeBmp m => Sys2Proof.Machine.execDecodeBmp m s
  | .decodeBip => Sys2Proof.Machine.execDecodeBip s
  | .pindex => Sys2Proof.Machine.execPindex s

end Sys2Proof.Machine
end

