-- ==== Sys2Proof/Machine/Port.lean ====
section
/-! DEFINITION. Machine/Port.lean: the Host's operations on the Block: register-port accesses, SRC writes and
hardware reset (`10_state.md` R20, R22, R25; `30_encoding.md` R90, R91). -/

namespace Sys2Proof.Machine

/-- Which register an access reaches. The port admits only 32-bit accesses at the offsets of R21 (R20). -/
def accessed (offset width : Nat) : Except Refusal Reg :=
  if width ≠ 32 then .error .accessWidth
  else if offset % 4 ≠ 0 then .error .misaligned
  else match Reg.at? offset with
    | some r => .ok r
    | none => .error .unmappedOffset

/-- A write of `w` to CMD (R22). While the Block is halted it has no effect (R205); an illegal word raises
IllegalCommand (R83); any other word executes its command to completion in this step. -/
def issueCommand (w : Word) (s : State) : Host.Outcome State Fault Refusal :=
  if s.halted then .next s
  else match decode w with
    | .ok i => exec i s
    | .error _ => .next (s.raise .illegalCommand w)

/-- A write of `w` to CTRL: a soft reset iff bit 0 is set, halted or not (R25, R241). -/
def writeCtrl (w : Word) (s : State) : State := if w.getLsbD 0 then s.blockReset else s

/-- An admitted register-port write. RW registers take the value whether or not the Block is halted (R40). -/
def writeReg (r : Reg) (v : Word) (s : State) : Host.Outcome State Fault Refusal :=
  match r with
  | .cmd => issueCommand v s
  | .ctrl => .next (writeCtrl v s)
  | r => .next { s with regs := s.regs.put v r }

/-- An admitted register-port read: its value is observed and nothing else happens (R66, R90). -/
def readReg (r : Reg) (s : State) : State := { s with observed := s.observed ++ [s.regs.get r] }

/-- The Host's write of consecutive SRC bytes (R90, `70_reset_and_hazards.md` R250). -/
def writeSrc (a : Nat) (bs : List Byte) (s : State) : Host.Outcome State Fault Refusal :=
  if s.srcOK a bs.length then .next { s with src := s.src.writeBlock a bs } else .fault .srcWriteOutside

/-- What one operation of the Host does to the machine. -/
def perform (op : HostOp) (s : State) : Host.Outcome State Fault Refusal :=
  match op with
  | .wr offset width v =>
    match accessed offset width with
    | .ok r => writeReg r v s
    | .error e => .refused e
  | .rd offset width =>
    match accessed offset width with
    | .ok r => .next (readReg r s)
    | .error e => .refused e
  | .wsrc a b0 bs => writeSrc a (b0 :: bs) s
  | .hardReset => .next s.blockReset

/-! ## The Host's program -/

/-- The next operation of the program: the one at the program position (`10_state.md` R44). -/
def State.fetch? (s : State) : Option HostOp := s.program[s.pos]?

/-- The program position advances by exactly 1 per operation (R44). -/
def advance : Host.Outcome State Fault Refusal → Host.Outcome State Fault Refusal
  | .next s => .next { s with pos := s.pos + 1 }
  | .fault f => .fault f
  | .refused r => .refused r

/-- The program with `op` at the program position, so that the next step performs it. -/
def State.withOp (s : State) (op : HostOp) : State :=
  { s with
    program := s.program.take s.pos ++ op :: s.program.drop (s.pos + 1)
    pos := min s.pos s.program.length }

/-- A line `wr NAME, imm` (R90). -/
def HostOp.write (r : Reg) (v : Word) : HostOp := .wr r.offset 32 v

/-- A line `rd NAME` (R90). -/
def HostOp.read (r : Reg) : HostOp := .rd r.offset 32

/-- The command pseudo-instructions of R91, each one write to CMD. The assembler refuses an operand that does
not fit (`Instr.wf`). -/
def HostOp.assemble (i : Instr) : Option HostOp := if i.wf then some (.write .cmd (encode i)) else none

/-- The pseudo-instruction `srst` (R91). -/
def HostOp.srst : HostOp := .write .ctrl 1

end Sys2Proof.Machine
end

