-- ==== Sys2Proof/Machine/Step.lean ====
section
/-! DEFINITION. Machine/Step.lean: one step of the machine: one operation of the Host, and the whole of the command
it issues (`00_scope.md` R7). -/

namespace Sys2Proof.Machine

/-- One step. Where the program has ended, the Block waits and nothing changes (`70_reset_and_hazards.md`
R240, R252; DESIGN CHOICE, log 6). -/
def step (s : State) : Host.Outcome State Fault Refusal :=
  match s.fetch? with
  | none => .next s
  | some op => advance (perform op s)

/-- `s` with the write of a command word to CMD placed as the operation its next step performs (log 5). -/
def State.withFetchWord (s : State) (nbits w : Nat) : State := s.withOp (.write .cmd (tableWord nbits w))

end Sys2Proof.Machine
end

