-- ==== Sys2Proof/Safety.lean ====
section
/-! DEFINITION. Safety.lean: the invariant of the machine, and the terms in which claims speak of runs. -/

namespace Sys2Proof.Machine

/-- What every reachable state satisfies. -/
structure State.Inv (s : State) : Prop where
  /-- SRC is in canonical form and within its length. -/
  srcWf : s.src.wf ∧ s.src.below s.srcLen
  /-- DST is in canonical form and within its length. -/
  dstWf : s.dst.wf ∧ s.dst.below s.dstLen
  /-- Both lengths are at most `2^32 - 1` (`00_scope.md` R6). -/
  lengths : s.srcLen ≤ Config.maxLen ∧ s.dstLen ≤ Config.maxLen
  /-- The palette is in canonical form, so it has at most 256 entries. -/
  palWf : s.pal.wf
  /-- ERR holds NONE or a code that the Block raises: never 1, 2 or 9 to 15 (`60_exceptions.md` R200, R201). -/
  errCode : s.regs.err = 0 ∨ (3 ≤ s.regs.err.toNat ∧ s.regs.err.toNat ≤ 8)
  /-- ERRINFO is 0 unless a command has faulted since reset (`10_state.md` R24). -/
  errInfoClear : s.regs.err = 0 → s.regs.errInfo = 0
  /-- The program position does not pass the end of the program (R44). -/
  posBound : s.pos ≤ s.program.length

/-- Every palette entry below `min(PAL_LEN, 256)` has been written since the last reset: the property that
`10_state.md` R42 names. -/
def State.PalCovered (s : State) : Prop :=
  ∀ i, i < s.regs.palLen.toNat → i < 256 → (s.pal.entry? i).isSome = true

/-- The program has ended: its last operation has been performed (`70_reset_and_hazards.md` R252). -/
def State.ended (s : State) : Bool := decide (s.program.length ≤ s.pos)

/-- A run is faulted when it ends with `STATUS.ERR != 0` (R252). -/
def State.faulted (s : State) : Bool := s.ended && s.halted

/-- A safe run of `n` steps from `s`: it is neither stopped by a fault nor refused, it performs the whole program,
and it ends with `STATUS.ERR = 0`. -/
def SafeRun (s : State) (n : Nat) : Prop :=
  ∃ t, core.run n s = .next t ∧ t.ended = true ∧ t.halted = false

/-- What a run shows (R252): the values its `rd` operations read, the final DST bytes, and the final registers, with
`STATUS.ERR` among them. -/
structure Observation where
  reads : List Word
  dst : Memory
  regs : RegFile
  deriving DecidableEq, Repr

/-- The observation of a run that ends in `s`. -/
def State.observation (s : State) : Observation where
  reads := s.observed
  dst := s.dst
  regs := s.regs

/-! ## The commands' checks, pixels and operands, as claims speak of them -/

/-- The region checks of DECODE_BMP (R126), in its order. -/
structure BmpChecks (m : Bool) (s : State) : Prop where
  depth : validDepth s.regs.depth.toNat
  pixels : s.srcOK s.regs.pixAddr.toNat (bmpStride s.regs.width.toNat s.regs.depth.toNat * s.regs.height.toNat)
  mask : m = true → s.srcOK s.regs.maskAddr.toNat (bmpStride s.regs.width.toNat 1 * s.regs.height.toNat)
  dst : s.dstOK s.regs.dstAddr.toNat (4 * s.regs.width.toNat * s.regs.height.toNat)

/-- The checks of DECODE_BIP before its rows (R165), in its order. -/
structure BipChecks (s : State) : Prop where
  depth : validDepth s.regs.depth.toNat
  stride : 0 < s.regs.height.toNat → bipRowLen s.regs.width.toNat s.regs.depth.toNat = s.regs.stride.toNat
  pixels : s.srcOK s.regs.pixAddr.toNat (s.regs.stride.toNat * s.regs.height.toNat)
  dst : s.dstOK s.regs.dstAddr.toNat (s.regs.width.toNat * s.regs.height.toNat)

/-- The DST region a command writes, by the table R85: its first address and its length. -/
def dstRegion (i : Instr) (s : State) : Nat × Nat :=
  match i with
  | .unpack => (s.regs.dstAddr.toNat, s.regs.srcCnt.toNat * (8 / s.regs.depth.toNat))
  | .decodeBmp _ => (s.regs.dstAddr.toNat, 4 * s.regs.width.toNat * s.regs.height.toNat)
  | .decodeBip | .pindex => (s.regs.dstAddr.toNat, s.regs.width.toNat * s.regs.height.toNat)
  | _ => (s.regs.dstAddr.toNat, 0)

/-- The index of output pixel `(x, y)` of DECODE_BMP: field `x` of stored row `H - 1 - y`, as a field of one SRC
byte (`41_bmp_palette.md` R125, R126; `40_primitives.md` R101). -/
def State.bmpIndexAt (s : State) (x y : Nat) : Nat :=
  let d := s.regs.depth.toNat
  field (s.srcByte (s.regs.pixAddr.toNat
    + (s.regs.height.toNat - 1 - y) * bmpStride s.regs.width.toNat d + x / (8 / d))) d (x % (8 / d))

/-- The AND-mask bit of output pixel `(x, y)` of DECODE_BMP (R125, R126). -/
def State.maskBitAt (s : State) (x y : Nat) : Nat :=
  field (s.srcByte (s.regs.maskAddr.toNat
    + (s.regs.height.toNat - 1 - y) * bmpStride s.regs.width.toNat 1 + x / 8)) 1 (x % 8)

/-- The index of pixel `(x, y)` of DECODE_BIP: field `x` of stored row `y` (`43_bip.md` R163, R165). -/
def State.bipIndexAt (s : State) (x y : Nat) : Nat :=
  let d := s.regs.depth.toNat
  field (s.srcByte (s.regs.pixAddr.toNat + y * s.regs.stride.toNat + x / (8 / d))) d (x % (8 / d))

/-- The number of pixels of PINDEX's grid. -/
def State.gridSize (s : State) : Nat := s.regs.width.toNat * s.regs.height.toNat

/-- Pixel `p` of PINDEX's grid in increasing address order (`42_palette_indexer.md` R140). -/
def State.gridPixel (s : State) (p : Nat) : Color := s.rgbaAt (s.regs.srcAddr.toNat + 4 * p)

/-- The number of distinct colors of PINDEX's grid. -/
def State.distinctColors (s : State) : Nat := ((List.range s.gridSize).map s.gridPixel).dedup.length

/-- The registers a command writes on success: column "writes" of the operand table R85. -/
def writesOf : Instr → List Reg
  | .extract _ | .unpack | .rdu16 | .rdu32 | .lookup | .decodeBmp _ | .decodeBip => [.result]
  | .hdrBip => [.width, .height, .stride, .depth, .palLen, .palAddr, .pixAddr, .transp]
  | .ploadBmp => [.palLen]
  | .ploadBip => []
  | .pindex => [.depth, .palLen, .result]

/-- The registers a command reads: column "reads" of the operand table R85. -/
def readsOf : Instr → List Reg
  | .extract _ => [.arg, .depth]
  | .unpack => [.srcAddr, .srcCnt, .depth, .dstAddr]
  | .rdu16 | .rdu32 | .hdrBip => [.srcAddr]
  | .ploadBmp => [.depth, .palAddr, .palLen]
  | .ploadBip => [.palAddr, .palLen]
  | .lookup => [.arg, .palLen]
  | .decodeBmp false => [.depth, .width, .height, .pixAddr, .palLen, .dstAddr]
  | .decodeBmp true => [.depth, .width, .height, .pixAddr, .maskAddr, .palLen, .dstAddr]
  | .decodeBip => [.depth, .width, .height, .stride, .pixAddr, .palLen, .dstAddr]
  | .pindex => [.srcAddr, .width, .height, .dstAddr]

end Sys2Proof.Machine
end

