-- ==== Sys2Proof/Certificates/Slice0/Obligations.lean ====
section
/-! DEFINITION. Certificates/Slice0/Obligations.lean: the statements for the provers, in the order of the spec's files.
Each docstring is the statement in words; OBLIGATIONS.json holds its rules. -/

open Sys2Proof Sys2Proof.Machine

/-! ## The command word (`30_encoding.md`) -/

/-- For every well-formed command, with every value of every operand the encoding admits, the decoder reads from its
word exactly that command. (R80, R81, R82, R91) -/
def Obligations.DecodeOfEncodeIsTheCommand : Prop :=
  ∀ i : Instr, i.wf = true → decode (encode i) = .ok i

/-- If the decoder reads a command from a word, the command is well formed and its encoding is that word: no bit of
an accepted word is dropped, and no two words decode to one command. (R80, R83, R86) -/
def Obligations.EncodeOfDecodeIsTheWord : Prop :=
  ∀ (w : Word) (i : Instr), decode w = .ok i → i.wf = true ∧ encode i = w

/-- A word decodes iff it meets the four conditions of R83. On a Block that is not halted, a CMD write of an illegal
word is a step to the state with the error IllegalCommand and that word recorded, and nothing else but the
program position changed. EXTRACT raises IllegalCommand, with no other effect, when K >= 8/DEPTH for a valid
DEPTH. (R83) -/
def Obligations.IllegalWordsRaiseIllegalCommand : Prop :=
  (∀ w : Word, (∃ i, decode w = .ok i) ↔
    (1 ≤ (w.extractLsb 7 0).toNat ∧ (w.extractLsb 7 0).toNat ≤ 0x0B) ∧
    (w.extractLsb 15 9 = 0 ∧ w.extractLsb 31 24 = 0) ∧
    ((w.extractLsb 7 0).toNat ≠ 0x09 → w.getLsbD 8 = false) ∧
    ((w.extractLsb 7 0).toNat ≠ 0x01 → w.extractLsb 23 16 = 0)) ∧
  (∀ (w : Word) (s : State), (¬ ∃ i, decode w = .ok i) → s.halted = false →
    s.fetch? = some (.write .cmd w) →
    step s = .next { s with regs := { s.regs with err := 7, errInfo := w }, pos := s.pos + 1 }) ∧
  (∀ (k : Nat) (s : State), k ≤ 255 → validDepth s.regs.depth.toNat → 8 / s.regs.depth.toNat ≤ k →
    exec (.extract k) s = .next { s with regs := { s.regs with
      err := 7, errInfo := BitVec.ofNat 32 (k * 65536 + 1) } })

/-- For every word and every row of opcode_table.json, the word matches the row's mask and match iff it decodes to
the row's command. Whatever EXTRACT k a word decodes to, the word matches the EXTRACT row and k is w[23:16];
whatever DECODE_BMP m, the word matches the DECODE_BMP row and m is w[8]. (R80, R81, R82) -/
def Obligations.OpcodeTableRowsSelectTheirCommands : Prop :=
  ∀ w : Word,
    (w &&& 0xFF00FFFF = 0x01 ↔ decode w = .ok (.extract (w.extractLsb 23 16).toNat)) ∧
    (w &&& 0xFFFFFFFF = 0x02 ↔ decode w = .ok .unpack) ∧
    (w &&& 0xFFFFFFFF = 0x03 ↔ decode w = .ok .rdu16) ∧
    (w &&& 0xFFFFFFFF = 0x04 ↔ decode w = .ok .rdu32) ∧
    (w &&& 0xFFFFFFFF = 0x05 ↔ decode w = .ok .hdrBip) ∧
    (w &&& 0xFFFFFFFF = 0x06 ↔ decode w = .ok .ploadBmp) ∧
    (w &&& 0xFFFFFFFF = 0x07 ↔ decode w = .ok .ploadBip) ∧
    (w &&& 0xFFFFFFFF = 0x08 ↔ decode w = .ok .lookup) ∧
    (w &&& 0xFFFFFEFF = 0x09 ↔ decode w = .ok (.decodeBmp (w.getLsbD 8))) ∧
    (w &&& 0xFFFFFFFF = 0x0A ↔ decode w = .ok .decodeBip) ∧
    (w &&& 0xFFFFFFFF = 0x0B ↔ decode w = .ok .pindex) ∧
    (∀ k, decode w = .ok (.extract k) → w &&& 0xFF00FFFF = 0x01 ∧ k = (w.extractLsb 23 16).toNat) ∧
    (∀ m, decode w = .ok (.decodeBmp m) → w &&& 0xFFFFFEFF = 0x09 ∧ m = w.getLsbD 8)

/-- EXTRACT 3 is 0x00030001, DECODE_BMP mask is 0x00000109 and PINDEX is 0x0000000B, both ways; the five words R92
calls illegal are rejected. (R92) -/
def Obligations.WrittenOutWordsDecode : Prop :=
  (decode 0x00030001 = .ok (.extract 3) ∧ encode (.extract 3) = 0x00030001) ∧
  (decode 0x00000109 = .ok (.decodeBmp true) ∧ encode (.decodeBmp true) = 0x00000109) ∧
  (decode 0x0000000B = .ok .pindex ∧ encode .pindex = 0x0000000B) ∧
  (∃ e, decode 0x00000000 = .error e) ∧ (∃ e, decode 0x00000102 = .error e) ∧
  (∃ e, decode 0x00010002 = .error e) ∧ (∃ e, decode 0x01000001 = .error e) ∧
  (∃ e, decode 0x0000000C = .error e)

/-! ## Steps and the register port (`10_state.md`, `60_exceptions.md`) -/

/-- On a Block that is not halted, when the operation at the program position writes a word to CMD that decodes to
command i, and exec answers next t for i, the step answers t with the program position one higher. The position
is the Host's program counter; step adds nothing else around exec. (R7, R22, R44) -/
def Obligations.StepRunsTheDecodedCommand : Prop :=
  ∀ (s t : State) (w : Word) (i : Instr), s.fetch? = some (.write .cmd w) → s.halted = false →
    decode w = .ok i → exec i s = .next t → step s = .next { t with pos := t.pos + 1 }

/-- Placing a 32-bit command word makes the next step fetch the write of exactly that word to CMD, and changes
nothing but the Host's program; the program position stays where it is within the program, and one past its end
becomes the program's length. The placing and that clamp are the model's choice (log 5, DESIGN CHOICE): R44 says
only that the program is a list with a position in it. (R44) -/
def Obligations.PlacedWordIsFetched : Prop :=
  ∀ (s : State) (w : Word),
    (s.withFetchWord 32 w.toNat).fetch? = some (.wr 0x00 32 w) ∧
    s.withFetchWord 32 w.toNat =
      { s with program := (s.withFetchWord 32 w.toNat).program, pos := min s.pos s.program.length }

/-- In the halted state a CMD write of any word, legal or not, changes nothing but the Host's program position.
(R22, R205) -/
def Obligations.HaltedBlockIgnoresCommands : Prop :=
  ∀ (s : State) (w : Word), s.regs.err ≠ 0 → s.fetch? = some (.wr 0x00 32 w) →
    step s = .next { s with pos := s.pos + 1 }

/-- From every halted state, a step that reaches a state that is not halted performed a hardware reset or a write to
CTRL with bit 0 set; every other step leaves STATUS.ERR and ERRINFO as they were. (That a hardware reset is an
operation of the program is the model's choice, log 9.) (R23, R205) -/
def Obligations.OnlyResetLeavesTheHaltedState : Prop :=
  ∀ s t : State, s.regs.err ≠ 0 → step s = .next t →
    (s.fetch? = some .hardReset ∨ ∃ w : Word, w.getLsbD 0 = true ∧ s.fetch? = some (.wr 0x08 32 w)) ∨
    (t.regs.err = s.regs.err ∧ t.regs.errInfo = s.regs.errInfo)

/-- If a step changes STATUS.ERR or ERRINFO, then it is a reset (both become 0), or the Block was not halted, the
operation was a CMD write of some word, ERRINFO is now that word and ERR is not 0. (That a hardware reset is an
operation of the program is the model's choice, log 9.) (R23, R24, R204) -/
def Obligations.ErrIsWrittenOnlyByFaultsAndResets : Prop :=
  ∀ s t : State, step s = .next t → (t.regs.err ≠ s.regs.err ∨ t.regs.errInfo ≠ s.regs.errInfo) →
    (t.regs.err = 0 ∧ t.regs.errInfo = 0 ∧
      (s.fetch? = some .hardReset ∨ ∃ w : Word, w.getLsbD 0 = true ∧ s.fetch? = some (.wr 0x08 32 w))) ∨
    (∃ w : Word, s.regs.err = 0 ∧ s.fetch? = some (.wr 0x00 32 w) ∧ t.regs.err ≠ 0 ∧ t.regs.errInfo = w)

/-- A write of v at the offset R21 gives any register other than CMD and CTRL (the offsets are written out) answers
a next state, halted or not. At a RW register's offset v is stored in that register's field of State, so the
register reads v, every other register reads as before, and nothing else but the program position changes; a
write to STATUS, ERRINFO, RESULT or TRANSP changes no register. (R20, R21, R40) -/
def Obligations.RegisterWriteStoresItsValue : Prop :=
  ∀ (s : State) (off : Nat) (r : Reg) (v : Word) (f : RegFile),
    (off, r, f) ∈ ([
      (0x04, .status, s.regs), (0x0C, .errInfo, s.regs),
      (0x40, .result, s.regs), (0x44, .transp, s.regs),
      (0x10, .srcAddr, { s.regs with srcAddr := v }), (0x14, .srcCnt, { s.regs with srcCnt := v }),
      (0x18, .dstAddr, { s.regs with dstAddr := v }), (0x1C, .depth, { s.regs with depth := v }),
      (0x20, .width, { s.regs with width := v }), (0x24, .height, { s.regs with height := v }),
      (0x28, .stride, { s.regs with stride := v }), (0x2C, .palAddr, { s.regs with palAddr := v }),
      (0x30, .palLen, { s.regs with palLen := v }), (0x34, .pixAddr, { s.regs with pixAddr := v }),
      (0x38, .maskAddr, { s.regs with maskAddr := v }), (0x3C, .arg, { s.regs with arg := v })] : List (Nat × Reg × RegFile)) →
    s.fetch? = some (.wr off 32 v) →
    step s = .next { s with regs := f, pos := s.pos + 1 } ∧
    (r ∈ [Reg.srcAddr, .srcCnt, .dstAddr, .depth, .width, .height, .stride, .palAddr, .palLen, .pixAddr,
      .maskAddr, .arg] → f.get r = v ∧ ∀ r', r' ≠ r → f.get r' = s.regs.get r')

/-- A read at the offset R21 gives a register (all 18 offsets are written out, each with its register's field of
State) answers the state with that register's value appended to the Host's observations and the program position
advanced. CMD and CTRL read 0, STATUS reads ERR below 28 zero bits, and TRANSP reads its flag below 31 zero
bits. (R20, R21, R22, R23, R25, R39, R66) -/
def Obligations.RegisterReadIsObserved : Prop :=
  ∀ (s : State) (off : Nat) (r : Reg) (v : Word),
    (off, r, v) ∈ ([
      (0x00, .cmd, 0), (0x04, .status, (0 : BitVec 28) ++ s.regs.err),
      (0x08, .ctrl, 0), (0x0C, .errInfo, s.regs.errInfo),
      (0x10, .srcAddr, s.regs.srcAddr), (0x14, .srcCnt, s.regs.srcCnt),
      (0x18, .dstAddr, s.regs.dstAddr), (0x1C, .depth, s.regs.depth),
      (0x20, .width, s.regs.width), (0x24, .height, s.regs.height),
      (0x28, .stride, s.regs.stride), (0x2C, .palAddr, s.regs.palAddr),
      (0x30, .palLen, s.regs.palLen), (0x34, .pixAddr, s.regs.pixAddr),
      (0x38, .maskAddr, s.regs.maskAddr), (0x3C, .arg, s.regs.arg),
      (0x40, .result, s.regs.result), (0x44, .transp, (0 : BitVec 31) ++ s.regs.transp)] : List (Nat × Reg × Word)) →
    s.fetch? = some (.rd off 32) →
    step s = .next { s with observed := s.observed ++ [v], pos := s.pos + 1 } ∧ s.regs.get r = v

/-- A register-port write, and a register-port read, is refused iff it is not 32 bits wide or its offset is not one
of 0x00, 0x04, ..., 0x44. (R20, R21) -/
def Obligations.InadmissibleAccessesAreRefused : Prop :=
  ∀ (s : State) (off width : Nat) (v : Word),
    ((∃ e, perform (.wr off width v) s = .refused e) ↔ ¬ (width = 32 ∧ off % 4 = 0 ∧ off ≤ 0x44)) ∧
    ((∃ e, perform (.rd off width) s = .refused e) ↔ ¬ (width = 32 ∧ off % 4 = 0 ∧ off ≤ 0x44))

/-- In every state, halted or not, a write to CTRL with bit 0 set answers the state that a hardware reset answers:
every register 0, no palette entry written, everything else unchanged but the program position. With bit 0 clear
it changes nothing but the program position. Bits 31 to 1 are ignored, and CTRL reads 0. (The hardware reset
compared with is the model's operation of the Host, log 9.) (R25, R241) -/
def Obligations.CtrlWriteIsASoftReset : Prop :=
  ∀ (s : State) (w : Word), s.fetch? = some (.wr 0x08 32 w) →
    (w.getLsbD 0 = true →
      step s = .next { s with regs := RegFile.reset, pal := [], pos := s.pos + 1 } ∧
      perform (.wr 0x08 32 w) s = perform .hardReset s) ∧
    (w.getLsbD 0 = false → step s = .next { s with pos := s.pos + 1 }) ∧
    s.regs.get .ctrl = 0

/-- A hardware reset answers a next state in which each of the 18 registers reads 0, ERR is 0, no palette entry
counts as written (an unspecified entry is a free value), and SRC, DST, their lengths and the Host's program are
unchanged; the model's State.reset has the same registers and palette. That a hardware reset is an operation of
the Host's program, and so moves the program position by one, is the model's choice (log 9, DESIGN CHOICE).
(R46, R240) -/
def Obligations.HardwareResetClearsTheBlock : Prop :=
  ∀ s : State, s.fetch? = some .hardReset →
    ∃ f : RegFile, step s = .next { s with regs := f, pal := [], pos := s.pos + 1 } ∧
      (∀ r, f.get r = 0) ∧ f.err = 0 ∧ (∀ i, Palette.entry? [] i = none) ∧
      State.reset.regs = f ∧ State.reset.pal = []

/-- A wsrc of n+1 bytes that lies within SRC_LEN answers a next state, halted or not, in which SRC byte addr+j is
the j-th byte, every other SRC byte is as before, and nothing else but the program position changes. One that
runs past SRC_LEN stops with the fault srcWriteOutside (the model's choice, log 7). (R60, R90, R250) -/
def Obligations.SrcWriteStoresItsBytes : Prop :=
  ∀ (s : State) (a : Nat) (b : Byte) (bs : List Byte), s.fetch? = some (.wsrc a b bs) →
    (a + (bs.length + 1) ≤ s.srcLen →
      ∃ m : Memory, step s = .next { s with src := m, pos := s.pos + 1 } ∧
        (∀ j, j ≤ bs.length → (b :: bs)[j]? = some (m.read (a + j))) ∧
        (∀ x, x < a ∨ a + (bs.length + 1) ≤ x → m.read x = s.src.read x)) ∧
    (s.srcLen < a + (bs.length + 1) → step s = .fault .srcWriteOutside)

/-- From every state, a step that answers next keeps the program, SRC_LEN and DST_LEN. While the program has not
ended it advances the position by exactly 1; after its last operation nothing changes (the model's choice, log
6). A hardware reset counts as an operation (the model's choice, log 9). (R44) -/
def Obligations.ProgramPositionAdvancesByOne : Prop :=
  ∀ s t : State, step s = .next t →
    t.program = s.program ∧ t.srcLen = s.srcLen ∧ t.dstLen = s.dstLen ∧
    (s.pos < s.program.length → t.pos = s.pos + 1) ∧ (s.program.length ≤ s.pos → t = s)

/-- For each of the eight errors, raising it answers the state whose STATUS reads the code of R200, whose ERRINFO is
the command word, and whose every other part is as before. (R200, R204) -/
def Obligations.RaiseRecordsCodeAndWord : Prop :=
  ∀ (s : State) (w : Word) (e : ErrorCode),
    s.raise e w = { s with regs := { s.regs with err := (s.raise e w).regs.err, errInfo := w } } ∧
    ((s.raise e w).regs.get .status).toNat =
      match e with
      | .typeMismatch => 1
      | .formatError => 2
      | .unsupportedDepth => 3
      | .strideMismatch => 4
      | .truncatedData => 5
      | .indexRange => 6
      | .illegalCommand => 7
      | .dstOverflow => 8

/-! ## Byte-buffer primitives (`40_primitives.md`) -/

/-- For every byte, valid depth and field index below 8/d, bit j of the field is bit 8-d(k+1)+j of the byte for j <
d, the field is below 2^d, field 0 is the top d bits, and at depth 8 the field is the byte. (R101) -/
def Obligations.FieldIsItsBitGroup : Prop :=
  ∀ (b : Byte) (d k : Nat), validDepth d → k < 8 / d →
    field b d k < 2 ^ d ∧
    (∀ j, j < d → (field b d k).testBit j = b.getLsbD (8 - d * (k + 1) + j)) ∧
    field b d 0 = b.toNat / 2 ^ (8 - d) ∧ field b 8 0 = b.toNat

/-- For every valid depth: unpack has length len*8/d and element i is field i mod (8/d) of byte i div (8/d); at
depth 8 it is the bytes; it distributes over concatenation; the fields of one byte are its elements; every
element is below 2^d. (R102, R109) -/
def Obligations.UnpackerLawsHold : Prop :=
  ∀ (bs cs : List Byte) (d : Nat), validDepth d →
    (unpack bs d).length = bs.length * 8 / d ∧
    (∀ i b, bs[i / (8 / d)]? = some b → (unpack bs d)[i]? = some (field b d (i % (8 / d)))) ∧
    unpack bs 8 = bs.map BitVec.toNat ∧
    unpack (bs ++ cs) d = unpack bs d ++ unpack cs d ∧
    (∀ b k, k < 8 / d → (unpack [b] d)[k]? = some (field b d k)) ∧
    (∀ x ∈ unpack bs d, x < 2 ^ d)

/-- For every width and valid depth: bipRowLen is the least byte count that holds w*d bits; bmpStride is
floor((d*w+31)/32)*4 and is that count rounded up to a multiple of 4; both are 0 at width 0; the stride is at
least the row length; and a row stored in at least bipRowLen bytes yields at least w indices. (R103, R104) -/
def Obligations.RowStridesCoverTheRow : Prop :=
  ∀ w d : Nat, validDepth d →
    bmpStride w d = (d * w + 31) / 32 * 4 ∧
    (w * d ≤ 8 * bipRowLen w d ∧ 8 * bipRowLen w d < w * d + 8) ∧
    bmpStride w d = (bipRowLen w d + 3) / 4 * 4 ∧ bipRowLen w d = (w * d + 7) / 8 ∧
    bmpStride 0 d = 0 ∧ bipRowLen 0 d = 0 ∧ bipRowLen w d ≤ bmpStride w d ∧
    (∀ bs : List Byte, bipRowLen w d ≤ bs.length → w ≤ (unpack bs d).length)

/-- For a valid DEPTH and K < 8/DEPTH, EXTRACT K answers the state in which RESULT is the field of ARG[7:0] and
every register but RESULT, the palette, SRC, DST and the Host's state are unchanged; RESULT does not depend on
ARG[31:8]. (R107, R81) -/
def Obligations.ExtractResult : Prop :=
  ∀ (s : State) (k : Nat), validDepth s.regs.depth.toNat → k < 8 / s.regs.depth.toNat →
    exec (.extract k) s = .next { s with regs := { s.regs with
      result := BitVec.ofNat 32 (field (s.regs.arg.extractLsb 7 0) s.regs.depth.toNat k) } }

/-- With a DEPTH outside {1,2,4,8} EXTRACT raises UnsupportedDepth whatever K is; with a valid DEPTH and K >=
8/DEPTH it raises IllegalCommand. Nothing else changes. (R107, R203) -/
def Obligations.ExtractTraps : Prop :=
  ∀ (s : State) (k : Nat),
    (¬ validDepth s.regs.depth.toNat →
      exec (.extract k) s = .next (s.raise .unsupportedDepth (encode (.extract k)))) ∧
    (validDepth s.regs.depth.toNat → 8 / s.regs.depth.toNat ≤ k →
      exec (.extract k) s = .next (s.raise .illegalCommand (encode (.extract k))))

/-- Where DEPTH is valid and both regions fit, UNPACK answers a state in which DST byte DST_ADDR+i is field i of the
row for every i < n = SRC_CNT*(8/DEPTH), every DST byte outside those n reads as before, RESULT is n (exactly,
where DST_LEN <= 2^32-1), and nothing else changes. (R102, R108) -/
def Obligations.UnpackResult : Prop :=
  ∀ s : State,
    let d := s.regs.depth.toNat
    let a := s.regs.srcAddr.toNat
    let o := s.regs.dstAddr.toNat
    let n := s.regs.srcCnt.toNat * (8 / d)
    validDepth d → a + s.regs.srcCnt.toNat ≤ s.srcLen → o + n ≤ s.dstLen →
    ∃ m : Memory,
      exec .unpack s = .next { s with dst := m, regs := { s.regs with result := BitVec.ofNat 32 n } } ∧
      (∀ i, i < n → (m.read (o + i)).toNat = field (s.srcByte (a + i / (8 / d))) d (i % (8 / d))) ∧
      (∀ x, x < o ∨ o + n ≤ x → m.read x = s.dst.read x) ∧
      (s.dstLen ≤ 4294967295 → (BitVec.ofNat 32 n).toNat = n)

/-- In that priority, each with nothing else changed; the checks hold for an empty row too. (R64, R108, R203) -/
def Obligations.UnpackTraps : Prop :=
  ∀ s : State,
    let d := s.regs.depth.toNat
    let a := s.regs.srcAddr.toNat
    let c := s.regs.srcCnt.toNat
    let o := s.regs.dstAddr.toNat
    (¬ validDepth d → exec .unpack s = .next (s.raise .unsupportedDepth 0x02)) ∧
    (validDepth d → s.srcLen < a + c → exec .unpack s = .next (s.raise .truncatedData 0x02)) ∧
    (validDepth d → a + c ≤ s.srcLen → s.dstLen < o + c * (8 / d) →
      exec .unpack s = .next (s.raise .dstOverflow 0x02))

/-- If SRC_ADDR + 2 <= SRC_LEN, RDU16 answers the state in which RESULT is the byte at SRC_ADDR+1 followed by the
byte at SRC_ADDR, zero-extended so that RESULT[31:16] = 0, and nothing else changes; otherwise it raises
TruncatedData and changes nothing else. (R105) -/
def Obligations.Rdu16ReadsLittleEndian : Prop :=
  ∀ s : State,
    let a := s.regs.srcAddr.toNat
    (a + 2 ≤ s.srcLen → exec .rdu16 s = .next { s with regs := { s.regs with
      result := (0 : BitVec 16) ++ (s.srcByte (a + 1) ++ s.srcByte a) } }) ∧
    (s.srcLen < a + 2 → exec .rdu16 s = .next (s.raise .truncatedData 0x03))

/-- If SRC_ADDR + 4 <= SRC_LEN, RDU32 answers the state in which RESULT is the four bytes from SRC_ADDR on, the last
one high, and nothing else changes; otherwise it raises TruncatedData and changes nothing else. (R106) -/
def Obligations.Rdu32ReadsLittleEndian : Prop :=
  ∀ s : State,
    let a := s.regs.srcAddr.toNat
    (a + 4 ≤ s.srcLen → exec .rdu32 s = .next { s with regs := { s.regs with
      result := s.srcByte (a + 3) ++ s.srcByte (a + 2) ++ s.srcByte (a + 1) ++ s.srcByte a } }) ∧
    (s.srcLen < a + 4 → exec .rdu32 s = .next (s.raise .truncatedData 0x04))

/-! ## BMP palette indexer, decode direction (`41_bmp_palette.md`) -/

/-- With c = PAL_LEN, or 2^DEPTH if PAL_LEN is 0, for a valid DEPTH and a palette region within SRC_LEN: PLOAD_BMP
answers a state in which entry i < min(c,256) reads as (byte 2, byte 1, byte 0, byte 3) of its four SRC bytes,
every other entry is as before, PAL_LEN holds c, and nothing else changes (RESULT and DST included). Duplicate
colors are loaded as they are. (R121, R124) -/
def Obligations.PloadBmpLoadsTheEntries : Prop :=
  ∀ (s : State) (c : Nat),
    c = (if s.regs.palLen = 0 then 2 ^ s.regs.depth.toNat else s.regs.palLen.toNat) →
    let p := s.regs.palAddr.toNat
    validDepth s.regs.depth.toNat → p + 4 * c ≤ s.srcLen →
    ∃ t : State, exec .ploadBmp s = .next t ∧
      t = { s with pal := t.pal, regs := { s.regs with palLen := t.regs.palLen } } ∧ t.regs.palLen.toNat = c ∧
      (∀ i, i < c → i < 256 → t.palRead i = ⟨s.srcByte (p + 4 * i + 2), s.srcByte (p + 4 * i + 1),
        s.srcByte (p + 4 * i), s.srcByte (p + 4 * i + 3)⟩ ∧ (t.pal.entry? i).isSome = true) ∧
      (∀ i, c ≤ i → t.pal.entry? i = s.pal.entry? i)

/-- A DEPTH outside {1,2,4,8} raises UnsupportedDepth whatever PAL_LEN holds; a valid DEPTH with PAL_ADDR + 4c >
SRC_LEN raises TruncatedData. Palette and PAL_LEN stay. (R100, R121, R203) -/
def Obligations.PloadBmpTraps : Prop :=
  ∀ (s : State) (c : Nat),
    c = (if s.regs.palLen = 0 then 2 ^ s.regs.depth.toNat else s.regs.palLen.toNat) →
    (¬ validDepth s.regs.depth.toNat → exec .ploadBmp s = .next (s.raise .unsupportedDepth 0x06)) ∧
    (validDepth s.regs.depth.toNat → s.srcLen < s.regs.palAddr.toNat + 4 * c →
      exec .ploadBmp s = .next (s.raise .truncatedData 0x06))

/-- With i = ARG[7:0]: if i < PAL_LEN, LOOKUP answers the state in which RESULT is a, b, g, r of an entry value c
from high to low byte and nothing else of the spec's state changes, where c is the entry if a load has written
it since reset and an unspecified value if none has; if i >= PAL_LEN it raises IndexRange and changes nothing
else. (The draw counter is the model's own, log 3.) (R42, R122) -/
def Obligations.LookupPacksTheEntry : Prop :=
  ∀ s : State,
    let i := (s.regs.arg.extractLsb 7 0).toNat
    (i < s.regs.palLen.toNat → ∃ c : Color, (s.pal.entry? i = some c ∨ s.pal.entry? i = none) ∧
      exec .lookup s = .next { s with
        regs := { s.regs with result := c.a ++ c.b ++ c.g ++ c.r }, draws := s.draws + 1 }) ∧
    (s.regs.palLen.toNat ≤ i → exec .lookup s = .next (s.raise .indexRange 0x08))

/-- Where the checks pass and every mapped index is below PAL_LEN, DECODE_BMP (M = 0 and M = 1) answers a state in
which, for every x < W and y < H, the four DST bytes at DST_ADDR + 4(yW + x) are r, g, b of the palette entry
named by field x of stored row H-1-y, and alpha 0 if M = 1 and the mask bit is set, else 255; every DST byte
outside the 4WH reads as before; RESULT is W*H (exactly, where DST_LEN <= 2^32-1); nothing else changes but the
model's draw counter. Padding indices beyond W play no part. The draw counter is the model's own (log 3, DESIGN
CHOICE), and that an entry no load has written has one value throughout the command is log 3 too (DEDUCED,
unsafe). (R123, R125, R126) -/
def Obligations.DecodeBmpWritesThePixels : Prop :=
  ∀ (s : State) (m : Bool),
    let W := s.regs.width.toNat
    let H := s.regs.height.toNat
    let o := s.regs.dstAddr.toNat
    BmpChecks m s → (∀ x y, x < W → y < H → s.bmpIndexAt x y < s.regs.palLen.toNat) →
    ∃ mem : Memory,
      exec (.decodeBmp m) s = .next { s with
        dst := mem, regs := { s.regs with result := BitVec.ofNat 32 (W * H) }, draws := s.draws + 1 } ∧
      (∀ x y, x < W → y < H →
        let q := o + 4 * (y * W + x)
        let c := s.palRead (s.bmpIndexAt x y)
        mem.read q = c.r ∧ mem.read (q + 1) = c.g ∧ mem.read (q + 2) = c.b ∧
        mem.read (q + 3) = if m = true ∧ s.maskBitAt x y = 1 then 0 else 255) ∧
      (∀ a, a < o ∨ o + 4 * (W * H) ≤ a → mem.read a = s.dst.read a) ∧
      (s.dstLen ≤ 4294967295 → (BitVec.ofNat 32 (W * H)).toNat = W * H)

/-- In that priority, each with nothing else changed; the mask region is checked only with M = 1, and the regions
are checked when W or H is 0 too. (R126, R203) -/
def Obligations.DecodeBmpTraps : Prop :=
  ∀ (s : State) (m : Bool),
    let d := s.regs.depth.toNat
    let W := s.regs.width.toNat
    let H := s.regs.height.toNat
    let w := encode (.decodeBmp m)
    let pixelsFit := s.regs.pixAddr.toNat + bmpStride W d * H ≤ s.srcLen
    let maskFits := s.regs.maskAddr.toNat + bmpStride W 1 * H ≤ s.srcLen
    (¬ validDepth d → exec (.decodeBmp m) s = .next (s.raise .unsupportedDepth w)) ∧
    (validDepth d → ¬ pixelsFit → exec (.decodeBmp m) s = .next (s.raise .truncatedData w)) ∧
    (validDepth d → pixelsFit → m = true → ¬ maskFits →
      exec (.decodeBmp m) s = .next (s.raise .truncatedData w)) ∧
    (validDepth d → pixelsFit → (m = true → maskFits) → s.dstLen < s.regs.dstAddr.toNat + 4 * W * H →
      exec (.decodeBmp m) s = .next (s.raise .dstOverflow w))

/-- If the region checks pass and some mapped pixel's index is >= PAL_LEN, DECODE_BMP answers a state with ERR = 6
and ERRINFO its word, every other register, the palette and SRC unchanged, and every DST byte outside [DST_ADDR,
+4WH) as before; of the bytes inside nothing is said. That they are free values of a numbered draw, and that the
command advances the draw counter by one, is the model's own form of R206's unspecified bytes (logs 3 and 4,
DESIGN CHOICE). (R126, R206) -/
def Obligations.DecodeBmpIndexRangeLeavesDstOpen : Prop :=
  ∀ (s : State) (m : Bool) (x y : Nat),
    let W := s.regs.width.toNat
    let H := s.regs.height.toNat
    let o := s.regs.dstAddr.toNat
    BmpChecks m s → x < W → y < H → s.regs.palLen.toNat ≤ s.bmpIndexAt x y →
    ∃ mem : Memory,
      exec (.decodeBmp m) s = .next { s with
        dst := mem, regs := { s.regs with err := 6, errInfo := if m then 0x109 else 0x09 },
        draws := s.draws + 1 } ∧
      (∀ a, a < o ∨ o + 4 * (W * H) ≤ a → mem.read a = s.dst.read a)

/-- Take a DECODE_BMP that completes, and any pixel x < W, y < H with index i. LOOKUP of i in the state before the
command answers a state, and the pixel's DST bytes are its RESULT bytes 0, 1 and 2, then 0xFF, except 0x00 where
M = 1 and the mask bit is set. For an entry that no load has written, the agreement rests on the model's giving
both commands one value of it (log 3, DEDUCED, unsafe). (R127) -/
def Obligations.DecodeBmpAgreesWithLookup : Prop :=
  ∀ (s t : State) (m : Bool) (x y : Nat) (arg : Word),
    s.regs.err = 0 → exec (.decodeBmp m) s = .next t → t.regs.err = 0 →
    x < s.regs.width.toNat → y < s.regs.height.toNat → arg.toNat = s.bmpIndexAt x y →
    ∃ u : State, exec .lookup { s with regs := { s.regs with arg := arg } } = .next u ∧ u.regs.err = 0 ∧
      let q := s.regs.dstAddr.toNat + 4 * (y * s.regs.width.toNat + x)
      t.dst.read q = u.regs.result.extractLsb 7 0 ∧
      t.dst.read (q + 1) = u.regs.result.extractLsb 15 8 ∧
      t.dst.read (q + 2) = u.regs.result.extractLsb 23 16 ∧
      t.dst.read (q + 3) = if m = true ∧ s.maskBitAt x y = 1 then 0x00 else 0xFF

/-! ## BMP palette indexer, encode direction (`42_palette_indexer.md`) -/

/-- Where both regions fit and the grid has k <= 256 distinct colors: PINDEX answers a state in which DEPTH is
sel(k), PAL_LEN and RESULT are k, DST byte DST_ADDR+p is below k and the entry it names is exactly pixel p's
color, pixels of one color share one index, every smaller index was given to an earlier pixel (first-seen
order), entries k and up and DST outside [DST_ADDR, +N) are as before, and nothing else changes. (R140, R141,
R142) -/
def Obligations.PindexFindsThePalette : Prop :=
  ∀ (s : State) (k : Nat),
    let N := s.gridSize
    let o := s.regs.dstAddr.toNat
    s.regs.srcAddr.toNat + 4 * N ≤ s.srcLen → o + N ≤ s.dstLen → k = s.distinctColors → k ≤ 256 →
    ∃ (mem : Memory) (pal : Palette),
      exec .pindex s = .next { s with dst := mem, pal := pal, regs := { s.regs with
        depth := if k ≤ 2 then 1 else if k ≤ 16 then 4 else 8
        palLen := BitVec.ofNat 32 k, result := BitVec.ofNat 32 k } } ∧
      (∀ p, p < N → (mem.read (o + p)).toNat < k ∧
        pal.entry? (mem.read (o + p)).toNat = some (s.gridPixel p)) ∧
      (∀ p q, p < N → q < N → s.gridPixel p = s.gridPixel q → mem.read (o + p) = mem.read (o + q)) ∧
      (∀ p j, p < N → j < (mem.read (o + p)).toNat → ∃ q, q < p ∧ (mem.read (o + q)).toNat = j) ∧
      (∀ i, k ≤ i → pal.entry? i = s.pal.entry? i) ∧
      (∀ x, x < o ∨ o + N ≤ x → mem.read x = s.dst.read x)

/-- Where both regions fit and the grid has more than 256 distinct colors: PINDEX answers a state in which DEPTH is
24, PAL_LEN and RESULT are 257, DST and everything else is unchanged, and entry j < 256 is the color of a pixel
p that no earlier pixel has, while the entries below j are exactly the colors of the pixels before p. (R141,
R143) -/
def Obligations.PindexTrueColorWritesNoIndices : Prop :=
  ∀ s : State,
    let N := s.gridSize
    s.regs.srcAddr.toNat + 4 * N ≤ s.srcLen → s.regs.dstAddr.toNat + N ≤ s.dstLen →
    256 < s.distinctColors →
    ∃ pal : Palette,
      exec .pindex s = .next { s with pal := pal, regs := { s.regs with
        depth := 24, palLen := 257, result := 257 } } ∧
      (∀ j, j < 256 → ∃ p, p < N ∧ pal.entry? j = some (s.gridPixel p) ∧
        (∀ q, q < p → s.gridPixel q ≠ s.gridPixel p ∧
          ∃ i, i < j ∧ pal.entry? i = some (s.gridPixel q)) ∧
        (∀ i, i < j → ∃ q, q < p ∧ pal.entry? i = some (s.gridPixel q)))

/-- In that priority, each with nothing else changed. (R141, R203) -/
def Obligations.PindexTraps : Prop :=
  ∀ s : State,
    let N := s.gridSize
    (s.srcLen < s.regs.srcAddr.toNat + 4 * N → exec .pindex s = .next (s.raise .truncatedData 0x0B)) ∧
    (s.regs.srcAddr.toNat + 4 * N ≤ s.srcLen → s.dstLen < s.regs.dstAddr.toNat + N →
      exec .pindex s = .next (s.raise .dstOverflow 0x0B))

/-- Every PINDEX that completes on a Block without an error leaves DEPTH = 1, 4, 8 or 24 for at most 2, at most 16,
at most 256 or more distinct colors, and PAL_LEN = RESULT = min(k, 257). (R141, R142, R144) -/
def Obligations.PindexDepthFollowsTheColorCount : Prop :=
  ∀ s t : State, s.regs.err = 0 → exec .pindex s = .next t → t.regs.err = 0 →
    let k := s.distinctColors
    t.regs.depth.toNat = (if k ≤ 2 then 1 else if k ≤ 16 then 4 else if k ≤ 256 then 8 else 24) ∧
    t.regs.palLen.toNat = min k 257 ∧ t.regs.result.toNat = min k 257

/-- Let PINDEX complete at s with t and select a depth of 8 or less. Let u be any state the Host has set up for the
decode: WIDTH and HEIGHT of s, DEPTH and PAL_LEN of t, SRC holding the palette of t as BGR entries at PAL_ADDR
and the indices packed at that depth in bottom-up bmpStride rows at PIX_ADDR, all regions within bounds. Then
PLOAD_BMP answers a state v, DECODE_BMP answers a state from v, and each output pixel has the r, g and b of the
grid's pixel and alpha 255. (R128 states it for opaque, pure-binary grids; it holds for any.) (R121, R126, R128,
R141) -/
def Obligations.IndexedGridDecodesBack : Prop :=
  ∀ s t u : State, s.regs.err = 0 → exec .pindex s = .next t → t.regs.err = 0 → t.regs.depth.toNat ≤ 8 →
    let W := s.regs.width.toNat
    let H := s.regs.height.toNat
    u.regs.width = s.regs.width → u.regs.height = s.regs.height →
    u.regs.depth = t.regs.depth → u.regs.palLen = t.regs.palLen →
    (∀ i c, i < t.regs.palLen.toNat → t.pal.entry? i = some c →
      u.srcByte (u.regs.palAddr.toNat + 4 * i) = c.b ∧ u.srcByte (u.regs.palAddr.toNat + 4 * i + 1) = c.g ∧
      u.srcByte (u.regs.palAddr.toNat + 4 * i + 2) = c.r) →
    (∀ x y, x < W → y < H →
      u.bmpIndexAt x y = (t.dst.read (s.regs.dstAddr.toNat + (y * W + x))).toNat) →
    u.regs.palAddr.toNat + 4 * u.colorCount ≤ u.srcLen → BmpChecks false u →
    ∃ v z : State, exec .ploadBmp u = .next v ∧ exec (.decodeBmp false) v = .next z ∧
      z.regs.err = u.regs.err ∧
      (∀ x y, x < W → y < H →
        let q := u.regs.dstAddr.toNat + 4 * (y * W + x)
        let c := s.gridPixel (y * W + x)
        z.dst.read q = c.r ∧ z.dst.read (q + 1) = c.g ∧ z.dst.read (q + 2) = c.b ∧ z.dst.read (q + 3) = 255)

/-! ## bip device bitmaps (`43_bip.md`) -/

/-- bin(v) holds iff v > 128; bin8(v) is 0xFF or 0x00 accordingly and bin gives it back; bit 0 to 3 of bipByte are
bin of r, g, b and a, and bits 4 to 7 are 0. (R160, R166) -/
def Obligations.ThresholdAndBipColorByte : Prop :=
  (∀ v : Byte, (bin v = true ↔ 128 < v.toNat) ∧ bin8 v = (if 128 < v.toNat then 0xFF else 0x00) ∧
    bin (bin8 v) = bin v) ∧
  (∀ c : Color, (bipByte c).getLsbD 0 = bin c.r ∧ (bipByte c).getLsbD 1 = bin c.g ∧
    (bipByte c).getLsbD 2 = bin c.b ∧ (bipByte c).getLsbD 3 = bin c.a ∧ (bipByte c).extractLsb 7 4 = 0)

/-- With B = SRC_ADDR, and pl the u16 at B+0xC, where the 16-byte header and the palette lie within SRC_LEN <=
2^32-1: HDR_BIP answers the state in which WIDTH, HEIGHT, STRIDE, DEPTH and PAL_LEN are the little-endian u16
fields at 4, 6, 8, 0xA and 0xC, TRANSP is 1 iff the u16 at 0xE is nonzero, PAL_ADDR is exactly B+0x10 and
PIX_ADDR exactly B+0x10+4pl, and nothing else changes. The bytes B to B+3 play no part. (R63, R67, R161, R167) -/
def Obligations.HdrBipLoadsTheFields : Prop :=
  ∀ s : State,
    let B := s.regs.srcAddr.toNat
    let u16 : Nat → BitVec 16 := fun off => s.srcByte (B + off + 1) ++ s.srcByte (B + off)
    s.srcLen ≤ 4294967295 → B + 0x10 ≤ s.srcLen → B + 0x10 + 4 * (u16 0xC).toNat ≤ s.srcLen →
    ∃ pa px : Word,
      exec .hdrBip s = .next { s with regs := { s.regs with
        width := (0 : BitVec 16) ++ u16 0x4, height := (0 : BitVec 16) ++ u16 0x6
        stride := (0 : BitVec 16) ++ u16 0x8, depth := (0 : BitVec 16) ++ u16 0xA
        palLen := (0 : BitVec 16) ++ u16 0xC, transp := if u16 0xE = 0 then 0 else 1
        palAddr := pa, pixAddr := px } } ∧
      pa.toNat = B + 0x10 ∧ px.toNat = B + 0x10 + 4 * (u16 0xC).toNat

/-- If the 16-byte header, or the palette of the length it declares, runs past SRC_LEN, HDR_BIP raises TruncatedData
and changes nothing else. (R161, R203) -/
def Obligations.HdrBipTraps : Prop :=
  ∀ s : State,
    let B := s.regs.srcAddr.toNat
    let pl := (s.srcByte (B + 0xC + 1) ++ s.srcByte (B + 0xC)).toNat
    (s.srcLen < B + 0x10 → exec .hdrBip s = .next (s.raise .truncatedData 0x05)) ∧
    (B + 0x10 ≤ s.srcLen → s.srcLen < B + 0x10 + 4 * pl →
      exec .hdrBip s = .next (s.raise .truncatedData 0x05))

/-- With c = PAL_LEN: if the palette region lies within SRC_LEN, PLOAD_BIP answers a state in which entry i <
min(c,256) reads as bin8 of its four SRC bytes in the order r, g, b, a, every other entry is as before and
nothing else changes, PAL_LEN and RESULT included; otherwise it raises TruncatedData and changes nothing else.
(R160, R162) -/
def Obligations.PloadBipLoadsBinarizedEntries : Prop :=
  ∀ s : State,
    let p := s.regs.palAddr.toNat
    let c := s.regs.palLen.toNat
    (p + 4 * c ≤ s.srcLen → ∃ t : State, exec .ploadBip s = .next t ∧ t = { s with pal := t.pal } ∧
      (∀ i, i < c → i < 256 → t.palRead i = ⟨bin8 (s.srcByte (p + 4 * i)), bin8 (s.srcByte (p + 4 * i + 1)),
        bin8 (s.srcByte (p + 4 * i + 2)), bin8 (s.srcByte (p + 4 * i + 3))⟩ ∧
        (t.pal.entry? i).isSome = true) ∧
      (∀ i, c ≤ i → t.pal.entry? i = s.pal.entry? i)) ∧
    (s.srcLen < p + 4 * c → exec .ploadBip s = .next (s.raise .truncatedData 0x07))

/-- Where the checks pass and every mapped index is below PAL_LEN, DECODE_BIP answers a state in which, for every x
< W and y < H, DST byte DST_ADDR + yW + x is bipByte of the palette entry named by field x of stored row y;
every DST byte outside the WH reads as before; RESULT is W*H (exactly, where DST_LEN <= 2^32-1); nothing else
changes but the model's draw counter. TRANSP plays no part, and STRIDE is not checked when H = 0. The draw
counter is the model's own (log 3, DESIGN CHOICE), and that an entry no load has written has one value
throughout the command is log 3 too (DEDUCED, unsafe). (R163, R164, R165) -/
def Obligations.DecodeBipWritesThePixels : Prop :=
  ∀ s : State,
    let W := s.regs.width.toNat
    let H := s.regs.height.toNat
    let o := s.regs.dstAddr.toNat
    BipChecks s → (∀ x y, x < W → y < H → s.bipIndexAt x y < s.regs.palLen.toNat) →
    ∃ mem : Memory,
      exec .decodeBip s = .next { s with
        dst := mem, regs := { s.regs with result := BitVec.ofNat 32 (W * H) }, draws := s.draws + 1 } ∧
      (∀ x y, x < W → y < H →
        mem.read (o + (y * W + x)) = bipByte (s.palRead (s.bipIndexAt x y))) ∧
      (∀ a, a < o ∨ o + W * H ≤ a → mem.read a = s.dst.read a) ∧
      (s.dstLen ≤ 4294967295 → (BitVec.ofNat 32 (W * H)).toNat = W * H)

/-- In that priority, each with nothing else changed. Whatever DECODE_BIP answers from a state whose ERR is not 4,
its ERR is 4 (StrideMismatch) iff DEPTH is valid, HEIGHT > 0 and bipRowLen(WIDTH, DEPTH) differs from STRIDE.
(R164, R165, R203) -/
def Obligations.DecodeBipTraps : Prop :=
  ∀ s : State,
    let d := s.regs.depth.toNat
    let W := s.regs.width.toNat
    let H := s.regs.height.toNat
    let S := s.regs.stride.toNat
    let strideFits := 0 < H → bipRowLen W d = S
    let rowsFit := s.regs.pixAddr.toNat + S * H ≤ s.srcLen
    (¬ validDepth d → exec .decodeBip s = .next (s.raise .unsupportedDepth 0x0A)) ∧
    (validDepth d → 0 < H → bipRowLen W d ≠ S → exec .decodeBip s = .next (s.raise .strideMismatch 0x0A)) ∧
    (validDepth d → strideFits → ¬ rowsFit → exec .decodeBip s = .next (s.raise .truncatedData 0x0A)) ∧
    (validDepth d → strideFits → rowsFit → s.dstLen < s.regs.dstAddr.toNat + W * H →
      exec .decodeBip s = .next (s.raise .dstOverflow 0x0A)) ∧
    (∀ t : State, s.regs.err ≠ 4 → exec .decodeBip s = .next t →
      (t.regs.err = 4 ↔ validDepth d ∧ 0 < H ∧ bipRowLen W d ≠ S))

/-- If the checks before the rows pass and some mapped pixel's index is >= PAL_LEN, DECODE_BIP answers a state with
ERR = 6 and ERRINFO its word, every other register, the palette and SRC unchanged, and every DST byte outside
[DST_ADDR, +WH) as before; of the bytes inside nothing is said. That they are free values of a numbered draw,
and that the command advances the draw counter by one, is the model's own form of R206's unspecified bytes (logs
3 and 4, DESIGN CHOICE). (R165, R206) -/
def Obligations.DecodeBipIndexRangeLeavesDstOpen : Prop :=
  ∀ (s : State) (x y : Nat),
    let W := s.regs.width.toNat
    let H := s.regs.height.toNat
    let o := s.regs.dstAddr.toNat
    BipChecks s → x < W → y < H → s.regs.palLen.toNat ≤ s.bipIndexAt x y →
    ∃ mem : Memory,
      exec .decodeBip s = .next { s with
        dst := mem, regs := { s.regs with err := 6, errInfo := 0x0A }, draws := s.draws + 1 } ∧
      (∀ a, a < o ∨ o + W * H ≤ a → mem.read a = s.dst.read a)

/-! ## The whole machine -/

/-- For every command and every state exec answers a next state; a CMD write of any word whatever is a step to a
next state. (R9, R205, R251) -/
def Obligations.EveryCommandAnswersInOneStep : Prop :=
  (∀ (i : Instr) (s : State), ∃ t, exec i s = .next t) ∧
  (∀ (s : State) (w : Word), s.fetch? = some (.wr 0x00 32 w) → ∃ t, step s = .next t)

/-- Whatever a command answers, completed or faulted: SRC, both lengths, the program, its position and the
observations are unchanged, and every DST byte outside the DST region R85 gives the command reads as before.
(R12, R60, R61, R66) -/
def Obligations.CommandsLeaveSrcAndTheHostAlone : Prop :=
  ∀ (i : Instr) (s t : State), exec i s = .next t →
    t.src = s.src ∧ t.srcLen = s.srcLen ∧ t.dstLen = s.dstLen ∧ t.program = s.program ∧ t.pos = s.pos ∧
    t.observed = s.observed ∧
    (∀ x, x < (dstRegion i s).1 ∨ (dstRegion i s).1 + (dstRegion i s).2 ≤ x → t.dst.read x = s.dst.read x)

/-- Run any command from two states that differ only in DST. Both answer states that differ only in DST, and each
DST byte either holds the same value in both, or was left alone by both. (That both runs read one value of a
palette entry no load has written, in LOOKUP and in both decodes, is the model's form, log 3, unsafe for such a
comparison; that the bytes R206 leaves open after an IndexRange are one free draw, the same in both, is log 4.)
(R12, R45, R61, R69) -/
def Obligations.NoCommandReadsDst : Prop :=
  ∀ (i : Instr) (s t : State) (d : Memory), exec i s = .next t →
    ∃ d' : Memory, exec i { s with dst := d } = .next { t with dst := d' } ∧
      ∀ x, d'.read x = t.dst.read x ∨ (t.dst.read x = s.dst.read x ∧ d'.read x = d.read x)

/-- If a command of a Block without an error answers a state with one, then that state is wholly the old one with
ERR set and the command's word in ERRINFO; or the command is DECODE_BMP or DECODE_BIP, the error is IndexRange,
and beside ERR, ERRINFO and the model's draw counter (one higher; logs 3 and 4, DESIGN CHOICE) the state is the
old one but for DST bytes within the command's DST range. (R204, R206) -/
def Obligations.FaultsArePreciseButForDst : Prop :=
  ∀ (i : Instr) (s t : State), s.regs.err = 0 → exec i s = .next t → t.regs.err ≠ 0 →
    t = { s with regs := { s.regs with err := t.regs.err, errInfo := encode i } } ∨
    ((i = .decodeBmp false ∨ i = .decodeBmp true ∨ i = .decodeBip) ∧ t.regs.err = 6 ∧
      t = { s with
        regs := { s.regs with err := 6, errInfo := encode i }, dst := t.dst, draws := s.draws + 1 } ∧
      ∀ x, x < (dstRegion i s).1 ∨ (dstRegion i s).1 + (dstRegion i s).2 ≤ x →
        t.dst.read x = s.dst.read x)

/-- If a command of a Block without an error completes, every register outside the column 'writes' of R85 for it
reads as before, STATUS and ERRINFO among them, and the palette is unchanged unless the command is PLOAD_BMP,
PLOAD_BIP or PINDEX. (R38, R85) -/
def Obligations.CommandsWriteOnlyTheirRegisters : Prop :=
  ∀ (i : Instr) (s t : State), s.regs.err = 0 → exec i s = .next t → t.regs.err = 0 →
    (∀ r, r ∉ writesOf i → t.regs.get r = s.regs.get r) ∧
    (i ≠ .ploadBmp → i ≠ .ploadBip → i ≠ .pindex → t.pal = s.pal)

/-- Writing any value to a register outside both columns of R85 for a command, before the command instead of after
it, makes no difference to what the command does, completed or faulted. MASK_ADDR is such a register for
DECODE_BMP with M = 0. The same for a register it writes without reading, which ends with the value the command
gives it, or was left alone. Run any command from two states that differ only in ERR, ERRINFO, RESULT and
TRANSP, which a register-port write cannot set: both answer states that differ in these four alone, and ERR with
ERRINFO, RESULT, and TRANSP each either end equal or were left alone by both. (CMD and CTRL store nothing. The
halted state's hold on a CMD write is the step's, not the command's. Free values are one draw in both runs: the
model's form, logs 3 and 4.) (R36, R39, R85) -/
def Obligations.UnreadRegistersDoNotMatter : Prop :=
  (∀ (i : Instr) (s t : State) (r : Reg) (v : Word), r ∉ readsOf i → r ∉ writesOf i → exec i s = .next t →
    exec i { s with regs := s.regs.put v r } = .next { t with regs := t.regs.put v r }) ∧
  (∀ (i : Instr) (s t : State) (r : Reg) (v : Word), r ∉ readsOf i → exec i s = .next t →
    ∃ v' : Word, exec i { s with regs := s.regs.put v r } = .next { t with regs := t.regs.put v' r } ∧
      (v' = t.regs.get r ∨ (t.regs.get r = s.regs.get r ∧ v' = v))) ∧
  (∀ (i : Instr) (s t : State) (e : BitVec 4) (x v : Word) (p : BitVec 1), exec i s = .next t →
    ∃ (e' : BitVec 4) (x' v' : Word) (p' : BitVec 1),
      exec i { s with regs := { s.regs with err := e, errInfo := x, result := v, transp := p } } =
        .next { t with regs := { t.regs with err := e', errInfo := x', result := v', transp := p' } } ∧
      ((e' = t.regs.err ∧ x' = t.regs.errInfo) ∨
        (t.regs.err = s.regs.err ∧ t.regs.errInfo = s.regs.errInfo ∧ e' = e ∧ x' = x)) ∧
      (v' = t.regs.result ∨ (t.regs.result = s.regs.result ∧ v' = v)) ∧
      (p' = t.regs.transp ∨ (t.regs.transp = s.regs.transp ∧ p' = p)))

/-- From every state without an error, each of the three commands, when it completes, leaves every palette entry
below min(PAL_LEN, 256) written since the last reset. (R41, R42) -/
def Obligations.PaletteLoadsCoverPalLen : Prop :=
  ∀ s t : State, s.regs.err = 0 → t.regs.err = 0 →
    (exec .ploadBmp s = .next t ∨ exec .ploadBip s = .next t ∨ exec .pindex s = .next t) →
    ∀ i, i < t.regs.palLen.toNat → i < 256 → (t.pal.entry? i).isSome = true

/-- If every entry below min(PAL_LEN,256) is written, it is so after every command other than HDR_BIP, completed or
faulted, and after every step, resets included, that is neither a Host write at PAL_LEN's offset nor a CMD write
of HDR_BIP's word. It is so in every state that a reset answers. HDR_BIP writes PAL_LEN and no entry, so R42
does not hold of it as worded (log 8). (R42, R46) -/
def Obligations.CommandsButHdrBipKeepThePaletteCovered : Prop :=
  (∀ (i : Instr) (s t : State), i ≠ .hdrBip → s.PalCovered → exec i s = .next t → t.PalCovered) ∧
  (∀ s t : State, s.PalCovered → (∀ v, s.fetch? ≠ some (.wr 0x30 32 v)) → s.fetch? ≠ some (.wr 0x00 32 0x05) →
    step s = .next t → t.PalCovered) ∧
  (∀ s t : State, perform .hardReset s = .next t → t.PalCovered)

/-- R42 says that after any completed command every entry below min(PAL_LEN,256) has been written, as long as the
Host has not written PAL_LEN. HDR_BIP itself writes PAL_LEN (R161), so a header alone makes unwritten entries
readable; this statement of R42 for HDR_BIP is expected to be refuted (log 8). (R42, R161) -/
def Obligations.HdrBipKeepsThePaletteCovered : Prop :=
  ∀ s t : State, s.PalCovered → exec .hdrBip s = .next t → t.PalCovered

/-- For canonical SRC and DST spaces within lengths of at most 2^32-1 and any program, the power-on state meets the
invariant; State.reset does. (R6, R46) -/
def Obligations.PowerOnMeetsTheInvariant : Prop :=
  (∀ (src dst : Memory) (sl dl : Nat) (prog : List HostOp), src.wf → src.below sl → dst.wf → dst.below dl →
    sl ≤ 4294967295 → dl ≤ 4294967295 → (State.powerOn src sl dst dl prog).Inv) ∧
  State.reset.Inv

/-- From every state that meets the invariant, a step that answers next gives a state that meets it: SRC, DST and
the palette stay in canonical form and within their lengths, ERR is 0 or a code from 3 to 8 (never TypeMismatch,
FormatError or a reserved code), ERRINFO is 0 while ERR is 0, and the program position stays within the program.
(R6, R24, R41, R44, R60, R61, R200, R201) -/
def Obligations.EveryStepKeepsTheInvariant : Prop :=
  ∀ s t : State, s.Inv → step s = .next t → t.Inv
end

