-- ==== Sys2Proof/Laws/State.lean ====
section
/-! SUPPORT. Laws/State.lean: the projections of every named update of the state, each true by `rfl`, and the
register file's reads after its writes. -/

namespace Sys2Proof.Machine

variable (s : State)

/-! ## `State.setResult` -/

@[simp] theorem State.setResult_regs (v : Nat) :
    (s.setResult v).regs =
      { s.regs with result := BitVec.ofNat 32 v } := rfl
@[simp] theorem State.setResult_pal (v : Nat) : (s.setResult v).pal = s.pal := rfl
@[simp] theorem State.setResult_src (v : Nat) : (s.setResult v).src = s.src := rfl
@[simp] theorem State.setResult_srcLen (v : Nat) : (s.setResult v).srcLen = s.srcLen := rfl
@[simp] theorem State.setResult_dst (v : Nat) : (s.setResult v).dst = s.dst := rfl
@[simp] theorem State.setResult_dstLen (v : Nat) : (s.setResult v).dstLen = s.dstLen := rfl
@[simp] theorem State.setResult_program (v : Nat) : (s.setResult v).program = s.program := rfl
@[simp] theorem State.setResult_pos (v : Nat) : (s.setResult v).pos = s.pos := rfl
@[simp] theorem State.setResult_observed (v : Nat) : (s.setResult v).observed = s.observed := rfl
@[simp] theorem State.setResult_draws (v : Nat) : (s.setResult v).draws = s.draws := rfl

/-! ## `State.raise` -/

@[simp] theorem State.raise_regs (e : ErrorCode) (w : Word) :
    (s.raise e w).regs =
      { s.regs with err := e.code, errInfo := w } := rfl
@[simp] theorem State.raise_pal (e : ErrorCode) (w : Word) : (s.raise e w).pal = s.pal := rfl
@[simp] theorem State.raise_src (e : ErrorCode) (w : Word) : (s.raise e w).src = s.src := rfl
@[simp] theorem State.raise_srcLen (e : ErrorCode) (w : Word) : (s.raise e w).srcLen = s.srcLen := rfl
@[simp] theorem State.raise_dst (e : ErrorCode) (w : Word) : (s.raise e w).dst = s.dst := rfl
@[simp] theorem State.raise_dstLen (e : ErrorCode) (w : Word) : (s.raise e w).dstLen = s.dstLen := rfl
@[simp] theorem State.raise_program (e : ErrorCode) (w : Word) : (s.raise e w).program = s.program := rfl
@[simp] theorem State.raise_pos (e : ErrorCode) (w : Word) : (s.raise e w).pos = s.pos := rfl
@[simp] theorem State.raise_observed (e : ErrorCode) (w : Word) : (s.raise e w).observed = s.observed := rfl
@[simp] theorem State.raise_draws (e : ErrorCode) (w : Word) : (s.raise e w).draws = s.draws := rfl

/-! ## `State.writeDst` -/

@[simp] theorem State.writeDst_regs (a : Nat) (bs : List Byte) : (s.writeDst a bs).regs = s.regs := rfl
@[simp] theorem State.writeDst_pal (a : Nat) (bs : List Byte) : (s.writeDst a bs).pal = s.pal := rfl
@[simp] theorem State.writeDst_src (a : Nat) (bs : List Byte) : (s.writeDst a bs).src = s.src := rfl
@[simp] theorem State.writeDst_srcLen (a : Nat) (bs : List Byte) : (s.writeDst a bs).srcLen = s.srcLen := rfl
@[simp] theorem State.writeDst_dst (a : Nat) (bs : List Byte) : (s.writeDst a bs).dst = s.dst.writeBlock a bs := rfl
@[simp] theorem State.writeDst_dstLen (a : Nat) (bs : List Byte) : (s.writeDst a bs).dstLen = s.dstLen := rfl
@[simp] theorem State.writeDst_program (a : Nat) (bs : List Byte) : (s.writeDst a bs).program = s.program := rfl
@[simp] theorem State.writeDst_pos (a : Nat) (bs : List Byte) : (s.writeDst a bs).pos = s.pos := rfl
@[simp] theorem State.writeDst_observed (a : Nat) (bs : List Byte) : (s.writeDst a bs).observed = s.observed := rfl
@[simp] theorem State.writeDst_draws (a : Nat) (bs : List Byte) : (s.writeDst a bs).draws = s.draws := rfl

/-! ## `State.drawn` -/

@[simp] theorem State.drawn_regs : s.drawn.regs = s.regs := rfl
@[simp] theorem State.drawn_pal : s.drawn.pal = s.pal := rfl
@[simp] theorem State.drawn_src : s.drawn.src = s.src := rfl
@[simp] theorem State.drawn_srcLen : s.drawn.srcLen = s.srcLen := rfl
@[simp] theorem State.drawn_dst : s.drawn.dst = s.dst := rfl
@[simp] theorem State.drawn_dstLen : s.drawn.dstLen = s.dstLen := rfl
@[simp] theorem State.drawn_program : s.drawn.program = s.program := rfl
@[simp] theorem State.drawn_pos : s.drawn.pos = s.pos := rfl
@[simp] theorem State.drawn_observed : s.drawn.observed = s.observed := rfl
@[simp] theorem State.drawn_draws : s.drawn.draws = s.draws + 1 := rfl

/-! ## `State.scrambleDst` -/

@[simp] theorem State.scrambleDst_regs (a n : Nat) : (s.scrambleDst a n).regs = s.regs := rfl
@[simp] theorem State.scrambleDst_pal (a n : Nat) : (s.scrambleDst a n).pal = s.pal := rfl
@[simp] theorem State.scrambleDst_src (a n : Nat) : (s.scrambleDst a n).src = s.src := rfl
@[simp] theorem State.scrambleDst_srcLen (a n : Nat) : (s.scrambleDst a n).srcLen = s.srcLen := rfl
@[simp] theorem State.scrambleDst_dst (a n : Nat) :
    (s.scrambleDst a n).dst =
      s.dst.writeBlock a ((List.range n).map fun j => Config.freeDstByte s.draws (a + j)) := rfl
@[simp] theorem State.scrambleDst_dstLen (a n : Nat) : (s.scrambleDst a n).dstLen = s.dstLen := rfl
@[simp] theorem State.scrambleDst_program (a n : Nat) : (s.scrambleDst a n).program = s.program := rfl
@[simp] theorem State.scrambleDst_pos (a n : Nat) : (s.scrambleDst a n).pos = s.pos := rfl
@[simp] theorem State.scrambleDst_observed (a n : Nat) : (s.scrambleDst a n).observed = s.observed := rfl
@[simp] theorem State.scrambleDst_draws (a n : Nat) : (s.scrambleDst a n).draws = s.draws + 1 := rfl

/-! ## `State.blockReset` -/

@[simp] theorem State.blockReset_regs : s.blockReset.regs = RegFile.reset := rfl
@[simp] theorem State.blockReset_pal : s.blockReset.pal = [] := rfl
@[simp] theorem State.blockReset_src : s.blockReset.src = s.src := rfl
@[simp] theorem State.blockReset_srcLen : s.blockReset.srcLen = s.srcLen := rfl
@[simp] theorem State.blockReset_dst : s.blockReset.dst = s.dst := rfl
@[simp] theorem State.blockReset_dstLen : s.blockReset.dstLen = s.dstLen := rfl
@[simp] theorem State.blockReset_program : s.blockReset.program = s.program := rfl
@[simp] theorem State.blockReset_pos : s.blockReset.pos = s.pos := rfl
@[simp] theorem State.blockReset_observed : s.blockReset.observed = s.observed := rfl
@[simp] theorem State.blockReset_draws : s.blockReset.draws = s.draws := rfl

/-! ## Reads of the state that an update leaves alone -/

theorem State.srcByte_congr {s t : State} (h : t.src = s.src) (a : Nat) : t.srcByte a = s.srcByte a := by
  simp [State.srcByte, h]

@[simp] theorem State.halted_raise (e : ErrorCode) (w : Word) : (s.raise e w).halted = true := by
  cases e <;> rfl

@[simp] theorem State.halted_blockReset : s.blockReset.halted = false := rfl

theorem ErrorCode.code_ne_zero (e : ErrorCode) : e.code ≠ 0 := by cases e <;> decide

/-! ## The register file -/

theorem RegFile.get_put_self (f : RegFile) (v : Word) (r : Reg) (h : r.writable = true) :
    (f.put v r).get r = v := by
  cases r <;> first | rfl | exact absurd h (by decide)

theorem RegFile.put_not_writable (f : RegFile) (v : Word) (r : Reg) (h : r.writable = false) :
    f.put v r = f := by
  cases r <;> first | rfl | exact absurd h (by decide)

theorem RegFile.get_put_ne (f : RegFile) (v : Word) (r r' : Reg) (h : r' ≠ r) :
    (f.put v r).get r' = f.get r' := by
  cases r <;> cases r' <;> first | rfl | exact absurd rfl h

@[simp] theorem RegFile.put_err (f : RegFile) (v : Word) (r : Reg) : (f.put v r).err = f.err := by
  cases r <;> rfl

@[simp] theorem RegFile.put_errInfo (f : RegFile) (v : Word) (r : Reg) : (f.put v r).errInfo = f.errInfo := by
  cases r <;> rfl

theorem RegFile.get_reset (r : Reg) : RegFile.reset.get r = 0 := by cases r <;> decide

/-- The register file is what the register port shows of it. -/
theorem RegFile.ext_get (f g : RegFile) (h : ∀ r, f.get r = g.get r) : f = g := by
  have hs := h .status
  have ht := h .transp
  have e : f.err = g.err := by
    have := congrArg (BitVec.truncate 4) hs
    simpa [RegFile.get, RegFile.statusWord] using this
  have p : f.transp = g.transp := by
    have := congrArg (BitVec.truncate 1) ht
    simpa [RegFile.get, RegFile.transpWord] using this
  have := h .errInfo; have := h .srcAddr; have := h .srcCnt; have := h .dstAddr; have := h .depth
  have := h .width; have := h .height; have := h .stride; have := h .palAddr; have := h .palLen
  have := h .pixAddr; have := h .maskAddr; have := h .arg; have := h .result
  cases f; cases g; simp_all [RegFile.get]

end Sys2Proof.Machine
end

