-- ==== Sys2Proof/Laws/Encoding.lean ====
section
/-! SUPPORT. Laws/Encoding.lean: the fields of a command word as arithmetic on its number. -/

namespace Sys2Proof

theorem opField_eq (w : Word) : opField w = w.toNat % 256 := by
  simp [opField, BitVec.extractLsb'_toNat]

theorem indexField_eq (w : Word) : indexField w = w.toNat / 65536 % 256 := by
  simp [indexField, BitVec.extractLsb'_toNat, Nat.shiftRight_eq_div_pow]

theorem maskField_eq (w : Word) : maskField w = decide (w.toNat / 256 % 2 = 1) := by
  rw [maskField, BitVec.getLsbD, Nat.testBit_eq_decide_div_mod_eq]

theorem reservedClear_iff (w : Word) :
    reservedClear w = true ↔ w.toNat / 512 % 128 = 0 ∧ w.toNat / 16777216 = 0 := by
  have h := w.isLt
  simp only [reservedClear, Bool.and_eq_true, beq_iff_eq, ← BitVec.toNat_inj, BitVec.extractLsb'_toNat,
    Nat.shiftRight_eq_div_pow, BitVec.ofNat_eq_ofNat, BitVec.toNat_ofNat]
  omega

/-- A word with clear reserved bits is its three fields. -/
theorem toNat_of_fields (w : Word) (h : reservedClear w = true) :
    w.toNat = opField w + (if maskField w then 256 else 0) + 65536 * indexField w := by
  have hr := (reservedClear_iff w).mp h
  rw [opField_eq, indexField_eq, maskField_eq]
  have := w.isLt
  by_cases hm : w.toNat / 256 % 2 = 1
  · simp only [hm, decide_true, if_true]; omega
  · simp only [hm, decide_false, Bool.false_eq_true, if_false]; omega

/-- The word of EXTRACT as a number. -/
theorem encode_extract_toNat {k : Nat} (h : k ≤ 255) : (encode (.extract k)).toNat = 65536 * k + 1 := by
  rw [encode, BitVec.toNat_ofNat, ← Nat.shiftLeft_add_eq_or_of_lt (by decide), Nat.shiftLeft_eq]
  omega

theorem legalWord_iff (w : Word) :
    LegalWord w ↔ (1 ≤ w.toNat % 256 ∧ w.toNat % 256 ≤ 11) ∧
      (w.toNat / 512 % 128 = 0 ∧ w.toNat / 16777216 = 0) ∧
      (w.toNat % 256 ≠ 9 → w.toNat / 256 % 2 = 0) ∧ (w.toNat % 256 ≠ 1 → w.toNat / 65536 % 256 = 0) := by
  have h := w.isLt
  have hm : (w.getLsbD 8 = false) ↔ w.toNat / 256 % 2 = 0 := by
    rw [BitVec.getLsbD, Nat.testBit_eq_decide_div_mod_eq]; simp
  have e1 : w.extractLsb 15 9 = 0 ↔ w.toNat / 512 % 128 = 0 := by
    simp only [← BitVec.toNat_inj, BitVec.extractLsb_toNat, Nat.shiftRight_eq_div_pow]; simp
  have e2 : w.extractLsb 31 24 = 0 ↔ w.toNat / 16777216 = 0 := by
    simp only [← BitVec.toNat_inj, BitVec.extractLsb_toNat, Nat.shiftRight_eq_div_pow]; simp; omega
  have e3 : w.extractLsb 23 16 = 0 ↔ w.toNat / 65536 % 256 = 0 := by
    simp only [← BitVec.toNat_inj, BitVec.extractLsb_toNat, Nat.shiftRight_eq_div_pow]; simp
  unfold LegalWord
  rw [hm, e1, e2, e3]

end Sys2Proof
end

