-- ==== Sys2Proof/Laws/Memory.lean ====
section
/-! SUPPORT. Laws/Memory.lean: a byte of SRC, of DST or of the palette after a write, and that every write keeps
the canonical form. -/

namespace Sys2Proof.Machine

/-! ## Consecutive bytes -/

theorem Memory.cells_ge (a : Nat) (bs : List Byte) : ∀ c ∈ Memory.cells a bs, a ≤ c.1 := by
  induction bs generalizing a with
  | nil => simp [Memory.cells]
  | cons b bs ih =>
    intro c hc
    unfold Memory.cells at hc
    split at hc
    · exact Nat.le_of_succ_le (ih _ c hc)
    · rcases List.mem_cons.mp hc with rfl | hc
      · exact Nat.le_refl _
      · exact Nat.le_of_succ_le (ih _ c hc)

theorem Memory.cells_lt (a : Nat) (bs : List Byte) : ∀ c ∈ Memory.cells a bs, c.1 < a + bs.length := by
  induction bs generalizing a with
  | nil => simp [Memory.cells]
  | cons b bs ih =>
    intro c hc
    unfold Memory.cells at hc
    simp only [List.length_cons]
    split at hc
    · have := ih _ c hc; omega
    · rcases List.mem_cons.mp hc with rfl | hc
      · simp
      · have := ih _ c hc; omega

theorem Memory.cells_listed (a : Nat) (bs : List Byte) :
    ∀ c ∈ Memory.cells a bs, c.2 ≠ Config.unlistedByte := by
  induction bs generalizing a with
  | nil => simp [Memory.cells]
  | cons b bs ih =>
    intro c hc
    unfold Memory.cells at hc
    split at hc
    · exact ih _ c hc
    · rcases List.mem_cons.mp hc with rfl | hc
      · assumption
      · exact ih _ c hc

theorem Memory.cells_rising (a : Nat) (bs : List Byte) :
    (Memory.cells a bs).Pairwise (fun c d => c.1 < d.1) := by
  induction bs generalizing a with
  | nil => simp [Memory.cells]
  | cons b bs ih =>
    unfold Memory.cells
    split
    · exact ih _
    · exact List.pairwise_cons.mpr ⟨fun d hd => Memory.cells_ge _ _ d hd, ih _⟩

/-! ## Reading -/

/-- A space that lists no cell at an address reads as an unlisted byte there. -/
theorem Memory.read_unlisted (m : Memory) (x : Nat) (h : ∀ c ∈ m, c.1 ≠ x) :
    m.read x = Config.unlistedByte := by
  induction m with
  | nil => rfl
  | cons c m ih =>
    rw [Memory.read, if_neg (h c (by simp))]
    exact ih fun d hd => h d (by simp [hd])

theorem Memory.read_append (m n : Memory) (x : Nat) :
    Memory.read (m ++ n) x = if ∃ c ∈ m, c.1 = x then m.read x else n.read x := by
  induction m with
  | nil => simp
  | cons c m ih =>
    by_cases hc : c.1 = x
    · simp [Memory.read, hc]
    · simp only [List.cons_append, Memory.read, ih, List.mem_cons, exists_eq_or_imp, hc, false_or, if_false]

theorem Memory.read_filter (m : Memory) (p : Host.Cell → Bool) (x : Nat)
    (hp : ∀ c ∈ m, c.1 = x → p c = true) : Memory.read (m.filter p) x = m.read x := by
  induction m with
  | nil => rfl
  | cons c m ih =>
    have ih := ih fun d hd => hp d (by simp [hd])
    by_cases hx : c.1 = x
    · simp [hp c (by simp) hx, Memory.read, hx]
    · by_cases hpc : p c = true
      · simp [hpc, Memory.read, hx, ih]
      · simp [hpc, Memory.read, hx, ih]

theorem Memory.read_cells (a : Nat) (bs : List Byte) (j : Nat) (h : j < bs.length) :
    (Memory.cells a bs).read (a + j) = bs[j] := by
  induction bs generalizing a j with
  | nil => simp at h
  | cons b bs ih =>
    unfold Memory.cells
    cases j with
    | zero =>
      split
      · rename_i hb
        rw [Memory.read_unlisted _ _ fun c hc => by have := Memory.cells_ge _ _ c hc; omega]
        simp [hb]
      · simp [Memory.read]
    | succ j =>
      have hj : j < bs.length := by simpa using h
      have := ih (a + 1) j hj
      rw [show a + 1 + j = a + (j + 1) by omega] at this
      split
      · simpa using this
      · rw [Memory.read, if_neg (by simp)]; simpa using this

/-- A byte inside a written block reads as the byte written. -/
theorem Memory.read_writeBlock_inside (m : Memory) (a : Nat) (bs : List Byte) (j : Nat) (h : j < bs.length) :
    (m.writeBlock a bs).read (a + j) = bs[j] := by
  have hlow : ¬ ∃ c ∈ m.filter (fun c => c.1 < a), c.1 = a + j := by
    rintro ⟨c, hc, he⟩
    have := (List.mem_filter.mp hc).2
    simp at this; omega
  rw [Memory.writeBlock, List.append_assoc, Memory.read_append, if_neg hlow, Memory.read_append]
  split
  · exact Memory.read_cells a bs j h
  · rename_i hn
    rw [Memory.read_unlisted _ _ fun c hc he => by
      have := (List.mem_filter.mp hc).2; simp at this; omega]
    rw [← Memory.read_cells a bs j h, Memory.read_unlisted _ _ fun c hc he => hn ⟨c, hc, he⟩]

/-- A byte outside a written block reads as before. -/
theorem Memory.read_writeBlock_outside (m : Memory) (a : Nat) (bs : List Byte) (x : Nat)
    (h : x < a ∨ a + bs.length ≤ x) : (m.writeBlock a bs).read x = m.read x := by
  have hmid : ¬ ∃ c ∈ Memory.cells a bs, c.1 = x := by
    rintro ⟨c, hc, rfl⟩
    have := Memory.cells_ge _ _ c hc
    have := Memory.cells_lt _ _ c hc
    omega
  rw [Memory.writeBlock, List.append_assoc, Memory.read_append, Memory.read_append, if_neg hmid]
  by_cases hx : x < a
  · have hlow := Memory.read_filter m (fun c => c.1 < a) x fun c _ he => by simp; omega
    split
    · exact hlow
    · rename_i hn
      rw [Memory.read_unlisted _ x fun c hc he => by
        have := (List.mem_filter.mp hc).2; simp at this; omega]
      rw [← hlow, Memory.read_unlisted _ x fun c hc he => hn ⟨c, hc, he⟩]
  · rw [if_neg]
    · exact Memory.read_filter m _ x fun c _ he => by simp; omega
    · rintro ⟨c, hc, rfl⟩
      have := (List.mem_filter.mp hc).2
      simp at this; omega

/-! ## The canonical form -/

theorem Memory.wf_nil : Memory.wf [] := ⟨List.Pairwise.nil, by simp⟩

/-- Writing keeps the canonical form, whatever the bytes are. -/
theorem Memory.writeBlock_wf (m : Memory) (a : Nat) (bs : List Byte) (h : m.wf) : (m.writeBlock a bs).wf := by
  constructor
  · rw [Memory.writeBlock, List.append_assoc]
    refine List.pairwise_append.mpr ⟨h.1.filter _, List.pairwise_append.mpr
      ⟨Memory.cells_rising a bs, h.1.filter _, ?_⟩, ?_⟩
    · intro c hc d hd
      have := Memory.cells_lt _ _ c hc
      have := (List.mem_filter.mp hd).2
      simp at this; omega
    · intro c hc d hd
      have h1 := (List.mem_filter.mp hc).2
      simp at h1
      rcases List.mem_append.mp hd with hd | hd
      · have := Memory.cells_ge _ _ d hd; omega
      · have h2 := (List.mem_filter.mp hd).2
        simp at h2; omega
  · intro c hc
    rw [Memory.writeBlock, List.append_assoc] at hc
    rcases List.mem_append.mp hc with hc | hc
    · exact h.2 c (List.mem_filter.mp hc).1
    · rcases List.mem_append.mp hc with hc | hc
      · exact Memory.cells_listed a bs c hc
      · exact h.2 c (List.mem_filter.mp hc).1

/-- A write inside the space lists no cell beyond it. -/
theorem Memory.writeBlock_below (m : Memory) (a : Nat) (bs : List Byte) (len : Nat) (h : m.below len)
    (ha : a + bs.length ≤ len) : (m.writeBlock a bs).below len := by
  intro c hc
  rw [Memory.writeBlock, List.append_assoc] at hc
  rcases List.mem_append.mp hc with hc | hc
  · exact h c (List.mem_filter.mp hc).1
  · rcases List.mem_append.mp hc with hc | hc
    · have := Memory.cells_lt _ _ c hc; omega
    · exact h c (List.mem_filter.mp hc).1

/-- Two canonical spaces with the same bytes are the same list. -/
theorem Memory.ext_read (m n : Memory) (hm : m.wf) (hn : n.wf) (h : ∀ x, m.read x = n.read x) : m = n := by
  have below_unlisted : ∀ (c : Host.Cell) (l : Memory), Memory.wf (c :: l) → ∀ x, x < c.1 →
      Memory.read (c :: l) x = Config.unlistedByte := by
    intro c l hl x hx
    refine Memory.read_unlisted _ _ fun d hd => ?_
    rcases List.mem_cons.mp hd with rfl | hd
    · omega
    · have := (List.pairwise_cons.mp hl.1).1 d hd; omega
  induction m generalizing n with
  | nil =>
    cases n with
    | nil => rfl
    | cons d n =>
      have := h d.1
      simp [Memory.read] at this
      exact absurd this.symm (hn.2 d (by simp))
  | cons c m ih =>
    cases n with
    | nil =>
      have := h c.1
      simp [Memory.read] at this
      exact absurd this (hm.2 c (by simp))
    | cons d n =>
      have hc := h c.1
      have hd := h d.1
      have hkey : c.1 = d.1 := by
        rcases Nat.lt_trichotomy c.1 d.1 with hlt | he | hlt
        · rw [below_unlisted d n hn _ hlt] at hc
          simp [Memory.read] at hc
          exact absurd hc (hm.2 c (by simp))
        · exact he
        · rw [below_unlisted c m hm _ hlt] at hd
          simp [Memory.read] at hd
          exact absurd hd.symm (hn.2 d (by simp))
      have hval : c.2 = d.2 := by simpa [Memory.read, hkey] using hc
      have hcd : c = d := Prod.ext hkey hval
      subst hcd
      have hm' := List.pairwise_cons.mp hm.1
      have hn' := List.pairwise_cons.mp hn.1
      congr 1
      refine ih n ⟨hm'.2, fun e he => hm.2 e (by simp [he])⟩ ⟨hn'.2, fun e he => hn.2 e (by simp [he])⟩
        fun x => ?_
      by_cases hx : c.1 = x
      · rw [Memory.read_unlisted m x fun e he hex => by have := hm'.1 e he; omega,
          Memory.read_unlisted n x fun e he hex => by have := hn'.1 e he; omega]
      · simpa [Memory.read, hx] using h x

/-! ## The palette -/

theorem Palette.cells_range (i : Nat) (cs : List Color) :
    ∀ c ∈ Palette.cells i cs, i ≤ c.1 ∧ c.1 < i + cs.length := by
  induction cs generalizing i with
  | nil => simp [Palette.cells]
  | cons c cs ih =>
    intro d hd
    simp only [Palette.cells, List.mem_cons] at hd
    rcases hd with rfl | hd
    · simp
    · have := ih _ d hd
      simp only [List.length_cons]; omega

theorem Palette.cells_rising (i : Nat) (cs : List Color) :
    (Palette.cells i cs).Pairwise (fun c d => c.1 < d.1) := by
  induction cs generalizing i with
  | nil => simp [Palette.cells]
  | cons c cs ih =>
    exact List.pairwise_cons.mpr ⟨fun d hd => (Palette.cells_range _ _ d hd).1, ih _⟩

theorem Palette.entry?_cells (i : Nat) (cs : List Color) (p : Palette) (j : Nat) (h : j < cs.length) :
    Palette.entry? (Palette.cells i cs ++ p) (i + j) = some cs[j] := by
  induction cs generalizing i j with
  | nil => simp at h
  | cons c cs ih =>
    cases j with
    | zero => simp [Palette.cells, Palette.entry?]
    | succ j =>
      have := ih (i + 1) j (by simpa using h)
      rw [show i + 1 + j = i + (j + 1) by omega] at this
      simp only [Palette.cells, List.cons_append, Palette.entry?]
      rw [if_neg (by omega)]
      simpa using this

theorem Palette.entry?_append_right (p q : Palette) (j : Nat) (h : ∀ c ∈ p, c.1 ≠ j) :
    Palette.entry? (p ++ q) j = q.entry? j := by
  induction p with
  | nil => rfl
  | cons c p ih =>
    rw [List.cons_append, Palette.entry?, if_neg (h c (by simp))]
    exact ih fun d hd => h d (by simp [hd])

theorem Palette.entry?_filter_ge (p : Palette) (n j : Nat) (h : n ≤ j) :
    Palette.entry? (p.filter (fun c => n ≤ c.1)) j = p.entry? j := by
  induction p with
  | nil => rfl
  | cons c p ih =>
    by_cases hc : c.1 = j
    · simp [show n ≤ j from h, Palette.entry?, hc]
    · by_cases hn : n ≤ c.1 <;> simp [hn, Palette.entry?, hc, ih]

/-- An entry a load writes holds the color loaded. -/
theorem Palette.entry?_load_lt (p : Palette) (cs : List Color) (j : Nat) (h : j < cs.length) (h2 : j < 256) :
    (p.load cs).entry? j = some cs[j] := by
  have hj : j < (cs.take Config.palCap).length := by simp [Config.palCap]; omega
  have := Palette.entry?_cells 0 (cs.take Config.palCap) (p.filter (fun c => cs.length ≤ c.1)) j hj
  rw [Nat.zero_add] at this
  rw [Palette.load, this, List.getElem_take]

/-- An entry a load does not write stays. -/
theorem Palette.entry?_load_ge (p : Palette) (cs : List Color) (j : Nat) (h : cs.length ≤ j) :
    (p.load cs).entry? j = p.entry? j := by
  rw [Palette.load, Palette.entry?_append_right, Palette.entry?_filter_ge p _ j h]
  intro c hc
  have := (Palette.cells_range _ _ c hc).2
  simp at this; omega

/-- A load keeps the canonical form of the palette. -/
theorem Palette.load_wf (p : Palette) (cs : List Color) (h : p.wf) : (p.load cs).wf := by
  constructor
  · refine List.pairwise_append.mpr ⟨Palette.cells_rising _ _, h.1.filter _, ?_⟩
    intro c hc d hd
    have h1 := (Palette.cells_range _ _ c hc).2
    have h2 := (List.mem_filter.mp hd).2
    simp at h1 h2; omega
  · intro c hc
    rcases List.mem_append.mp hc with hc | hc
    · have := (Palette.cells_range _ _ c hc).2
      simp [Config.palCap] at this ⊢; omega
    · exact h.2 c (List.mem_filter.mp hc).1

end Sys2Proof.Machine
end

