-- ==== Sys2Proof/Laws/Operands.lean ====
section
/-! SUPPORT. Laws/Operands.lean: the lengths, elements and bounds of the shared functions and of the index lists. -/

namespace Sys2Proof.Machine

/-! ## Depths -/

/-- A valid depth with its number of fields per byte, so that division by it is by a literal. -/
theorem validDepth_cases {d : Nat} (h : validDepth d) :
    (d = 1 ∧ 8 / d = 8) ∨ (d = 2 ∧ 8 / d = 4) ∨ (d = 4 ∧ 8 / d = 2) ∨ (d = 8 ∧ 8 / d = 1) := by
  rcases h with rfl | rfl | rfl | rfl <;> simp

theorem fieldsPerByte_pos {d : Nat} (h : validDepth d) : 0 < 8 / d := by
  rcases validDepth_cases h with ⟨rfl, h⟩ | ⟨rfl, h⟩ | ⟨rfl, h⟩ | ⟨rfl, h⟩ <;> omega

/-! ## Fields -/

/-- A field has `d` bits (R101). -/
theorem field_lt (b : Byte) (d k : Nat) : field b d k < 2 ^ d := by
  have : (2 : Nat) ^ d - 1 < 2 ^ d := by have := Nat.two_pow_pos d; omega
  exact Nat.lt_of_le_of_lt Nat.and_le_right this

theorem field_lt_256 (b : Byte) (d k : Nat) : field b d k < 256 := by
  refine Nat.lt_of_le_of_lt Nat.and_le_left ?_
  exact Nat.lt_of_le_of_lt (Nat.shiftRight_le _ _) b.isLt

theorem indexByte_toNat {i : Nat} (h : i < 256) : (indexByte i).toNat = i := by
  simp [indexByte, Nat.mod_eq_of_lt h]

/-! ## Unpacking -/

@[simp] theorem State.length_srcBytes (s : State) (a n : Nat) : (s.srcBytes a n).length = n := by
  simp [State.srcBytes]

theorem State.getD_srcBytes (s : State) (a n i : Nat) (h : i < n) :
    (s.srcBytes a n).getD i 0 = s.srcByte (a + i) := by
  simp [State.srcBytes, h]

@[simp] theorem length_unpack (bs : List Byte) (d : Nat) : (unpack bs d).length = bs.length * 8 / d := by
  simp [unpack]

/-- The count of R102 as a product (R108: `n = c * (8 / d)`). -/
theorem fieldCount_eq {d : Nat} (h : validDepth d) (c : Nat) : c * 8 / d = c * (8 / d) := by
  rcases h with rfl | rfl | rfl | rfl <;> omega

theorem getElem_unpack (bs : List Byte) (d i : Nat) (h : i < (unpack bs d).length) :
    (unpack bs d)[i] = field (bs.getD (i / (8 / d)) 0) d (i % (8 / d)) := by
  simp [unpack]

/-- A row stored in at least `bipRowLen(w, d)` bytes yields at least `w` indices (R110). -/
theorem rowLen_suffices {w d len : Nat} (h : validDepth d) (hl : bipRowLen w d ≤ len) : w ≤ len * 8 / d := by
  unfold bipRowLen at hl
  rcases h with rfl | rfl | rfl | rfl <;> omega

theorem bipRowLen_le_bmpStride {w d : Nat} (h : validDepth d) : bipRowLen w d ≤ bmpStride w d := by
  unfold bipRowLen bmpStride
  rcases h with rfl | rfl | rfl | rfl <;> omega

theorem State.length_rowIndices (s : State) {a len d w : Nat} (h : validDepth d) (hl : bipRowLen w d ≤ len) :
    (s.rowIndices a len d w).length = w := by
  simp [State.rowIndices, rowLen_suffices h hl]

/-- Index `x` of a row is the field at bit `x * d` of it. -/
theorem State.getElem_rowIndices (s : State) {a len d w x : Nat} (h : validDepth d) (hl : bipRowLen w d ≤ len)
    (hx : x < (s.rowIndices a len d w).length) :
    (s.rowIndices a len d w)[x] = field (s.srcByte (a + x / (8 / d))) d (x % (8 / d)) := by
  have hw : x < w := by rwa [s.length_rowIndices h hl] at hx
  have hlen := rowLen_suffices h hl
  simp only [State.rowIndices, List.getElem_take, getElem_unpack]
  rw [s.getD_srcBytes]
  rw [fieldCount_eq h] at hlen
  exact (Nat.div_lt_iff_lt_mul (fieldsPerByte_pos h)).mpr (by omega)

/-! ## Rows that follow each other -/

/-- The elements of rows of equal length that follow each other, by row and column. -/
theorem getElem?_flatMap_rows {α : Type} (row : Nat → List α) (w n : Nat) (hw : ∀ y, y < n → (row y).length = w)
    (x y : Nat) (hx : x < w) (hy : y < n) :
    ((List.range n).flatMap row)[y * w + x]? = (row y)[x]? := by
  induction n with
  | zero => omega
  | succ n ih =>
    have hlen : ∀ m, m ≤ n → ((List.range m).flatMap row).length = m * w := by
      intro m hm
      induction m with
      | zero => simp
      | succ m ihm =>
        rw [List.range_succ, List.flatMap_append, List.length_append, ihm (by omega)]
        simp [hw m (by omega), Nat.succ_mul]
    rw [List.range_succ, List.flatMap_append]
    rcases Nat.lt_or_ge y n with h | h
    · have hb : y * w + x < n * w := by
        have : (y + 1) * w ≤ n * w := Nat.mul_le_mul_right w h
        rw [Nat.succ_mul] at this; omega
      rw [List.getElem?_append_left (by rw [hlen n (Nat.le_refl n)]; exact hb)]
      exact ih (fun y hy => hw y (by omega)) h
    · have he : y = n := by omega
      subst he
      rw [List.getElem?_append_right (by rw [hlen y (Nat.le_refl y)]; omega), hlen y (Nat.le_refl y)]
      simp

theorem length_flatMap_rows {α : Type} (row : Nat → List α) (w n : Nat) (hw : ∀ y, y < n → (row y).length = w) :
    ((List.range n).flatMap row).length = n * w := by
  induction n with
  | zero => simp
  | succ n ih =>
    rw [List.range_succ, List.flatMap_append, List.length_append, ih fun y hy => hw y (by omega)]
    simp [hw n (by omega), Nat.succ_mul]

/-- Every position below `n * w` is column `x` of row `y`. -/
theorem position_split {p w n : Nat} (h : p < n * w) : ∃ x y, x < w ∧ y < n ∧ p = y * w + x := by
  have hw : 0 < w := Nat.pos_of_ne_zero fun h0 => by simp [h0] at h
  refine ⟨p % w, p / w, Nat.mod_lt _ hw, (Nat.div_lt_iff_lt_mul hw).mpr h, ?_⟩
  rw [Nat.mul_comm]; exact (Nat.div_add_mod p w).symm

/-- Elements of equal-length pieces that follow each other, by piece. -/
theorem getElem?_flatMap_pieces {α β : Type} (f : α → List β) (n : Nat) (hf : ∀ a, (f a).length = n)
    (l : List α) (p c : Nat) (hc : c < n) : (l.flatMap f)[n * p + c]? = (l[p]?).bind fun a => (f a)[c]? := by
  induction l generalizing p with
  | nil => simp
  | cons a l ih =>
    rw [List.flatMap_cons]
    cases p with
    | zero => simp [List.getElem?_append_left, hf, hc]
    | succ p =>
      rw [List.getElem?_append_right (by rw [hf, Nat.mul_succ]; omega), hf,
        show n * (p + 1) + c - n = n * p + c by rw [Nat.mul_succ]; omega, ih p]
      simp

theorem length_flatMap_pieces {α β : Type} (f : α → List β) (n : Nat) (hf : ∀ a, (f a).length = n) (l : List α) :
    (l.flatMap f).length = n * l.length := by
  induction l with
  | nil => simp
  | cons a l ih => rw [List.flatMap_cons, List.length_append, ih, hf, List.length_cons, Nat.mul_succ]; omega

/-! ## The index lists of the two decodes -/

theorem State.length_bottomUpIndices (s : State) {a d W H : Nat} (h : validDepth d) :
    (s.bottomUpIndices a d W H).length = W * H := by
  rw [State.bottomUpIndices, length_flatMap_rows _ W H fun y _ =>
    s.length_rowIndices h (bipRowLen_le_bmpStride h), Nat.mul_comm]

/-- Output pixel `(x, y)` of a bottom-up bitmap is field `x` of stored row `H - 1 - y` (R126). -/
theorem State.getElem?_bottomUpIndices (s : State) {a d W H x y : Nat} (h : validDepth d) (hx : x < W)
    (hy : y < H) :
    (s.bottomUpIndices a d W H)[y * W + x]? =
      some (field (s.srcByte (a + (H - 1 - y) * bmpStride W d + x / (8 / d))) d (x % (8 / d))) := by
  have hl := s.length_rowIndices (a := a + (H - 1 - y) * bmpStride W d) h (bipRowLen_le_bmpStride (w := W) h)
  rw [State.bottomUpIndices, getElem?_flatMap_rows _ W H
    (fun y _ => s.length_rowIndices h (bipRowLen_le_bmpStride h)) x y hx hy,
    List.getElem?_eq_getElem (by omega), s.getElem_rowIndices h (bipRowLen_le_bmpStride h)]

theorem State.length_topDownIndices (s : State) {a S d W H : Nat} (h : validDepth d)
    (hS : 0 < H → bipRowLen W d = S) : (s.topDownIndices a S d W H).length = W * H := by
  rw [State.topDownIndices, length_flatMap_rows _ W H fun y hy =>
    s.length_rowIndices h (Nat.le_of_eq (hS (by omega))), Nat.mul_comm]

/-- Pixel `(x, y)` of a bip bitmap is field `x` of stored row `y` (R163, R165). -/
theorem State.getElem?_topDownIndices (s : State) {a S d W H x y : Nat} (h : validDepth d)
    (hS : 0 < H → bipRowLen W d = S) (hx : x < W) (hy : y < H) :
    (s.topDownIndices a S d W H)[y * W + x]? =
      some (field (s.srcByte (a + y * S + x / (8 / d))) d (x % (8 / d))) := by
  have hS' := Nat.le_of_eq (hS (by omega))
  have hl := s.length_rowIndices (a := a + y * S) h hS'
  rw [State.topDownIndices, getElem?_flatMap_rows _ W H (fun y _ => s.length_rowIndices h hS') x y hx hy,
    List.getElem?_eq_getElem (by omega), s.getElem_rowIndices h hS']

/-- Every index in range, over the list, is every index in range over the pixels. -/
theorem forall_mem_iff_pixels {l : List Nat} {W H b : Nat} (f : Nat → Nat → Nat) (hl : l.length = W * H)
    (hf : ∀ x y, x < W → y < H → l[y * W + x]? = some (f x y)) :
    (∀ i ∈ l, i < b) ↔ ∀ x y, x < W → y < H → f x y < b := by
  constructor
  · intro h x y hx hy
    exact h _ (List.mem_of_getElem? (hf x y hx hy))
  · intro h i hi
    obtain ⟨p, hp, rfl⟩ := List.getElem_of_mem hi
    obtain ⟨x, y, hx, hy, rfl⟩ := position_split (w := W) (n := H) (by rw [Nat.mul_comm, ← hl]; exact hp)
    have := hf x y hx hy
    rw [List.getElem?_eq_getElem hp] at this
    rw [Option.some.inj this]
    exact h x y hx hy

/-! ## Little-endian reads -/

theorem toNat_append_byte {n : Nat} (x : BitVec n) (b : Byte) : (x ++ b).toNat = x.toNat * 256 + b.toNat := by
  rw [BitVec.toNat_append, ← Nat.shiftLeft_add_eq_or_of_lt b.isLt, Nat.shiftLeft_eq]

/-- A u16 read is its two bytes, the second one high (R63). -/
theorem State.memRead_two (s : State) (a : Nat) :
    s.memRead a 2 = (s.srcByte (a + 1) ++ s.srcByte a).toNat := by
  simp only [State.memRead, State.srcBytes, List.range_succ, List.range_zero, List.nil_append,
    List.map_cons, List.map_nil, List.cons_append, littleEndian, toNat_append_byte, Nat.add_zero]
  omega

/-- A u32 read is its four bytes, the last one high (R63). -/
theorem State.memRead_four (s : State) (a : Nat) :
    s.memRead a 4 =
      (s.srcByte (a + 3) ++ s.srcByte (a + 2) ++ s.srcByte (a + 1) ++ s.srcByte a).toNat := by
  simp only [State.memRead, State.srcBytes, List.range_succ, List.range_zero, List.nil_append,
    List.map_cons, List.map_nil, List.cons_append, littleEndian, toNat_append_byte, Nat.add_zero]
  omega

theorem State.memRead_two_lt (s : State) (a : Nat) : s.memRead a 2 < 65536 := by
  rw [s.memRead_two]; exact (s.srcByte (a + 1) ++ s.srcByte a).isLt

end Sys2Proof.Machine
end

