-- ==== Sys2Proof/Laws/Scan.lean ====
section
/-! SUPPORT. Laws/Scan.lean: what the palette scan of PINDEX finds (`42_palette_indexer.md` R141). -/

namespace Sys2Proof.Machine

/-- The scan of one more pixel, whose color is known or new. -/
theorem scanPalette_cons (L : List Color) (c : Color) (cs : List Color) :
    (∃ j, ∃ h : j < L.length, L[j] = c ∧
      scanPalette L (c :: cs) = ((scanPalette L cs).1, j :: (scanPalette L cs).2)) ∨
    (c ∉ L ∧ scanPalette L (c :: cs) =
      ((scanPalette (L ++ [c]) cs).1, L.length :: (scanPalette (L ++ [c]) cs).2)) := by
  cases hf : L.findIdx? (fun x => x == c) with
  | some j =>
    left
    obtain ⟨h, he, -⟩ := List.findIdx?_eq_some_iff_getElem.mp hf
    exact ⟨j, h, by simpa using he, by simp [scanPalette, hf]⟩
  | none =>
    right
    refine ⟨fun hc => ?_, by simp [scanPalette, hf]⟩
    have := List.findIdx?_eq_none_iff.mp hf c hc
    simp at this

/-- The scan only appends to the colors found so far. -/
theorem scanPalette_prefix (L cs : List Color) : L <+: (scanPalette L cs).1 := by
  induction cs generalizing L with
  | nil => simp [scanPalette]
  | cons c cs ih =>
    rcases scanPalette_cons L c cs with ⟨j, hj, -, he⟩ | ⟨-, he⟩
    · rw [he]; exact ih L
    · rw [he]; exact (List.prefix_append L [c]).trans (ih _)

/-- One index per pixel. -/
theorem scanPalette_length (L cs : List Color) : (scanPalette L cs).2.length = cs.length := by
  induction cs generalizing L with
  | nil => simp [scanPalette]
  | cons c cs ih =>
    rcases scanPalette_cons L c cs with ⟨j, hj, -, he⟩ | ⟨-, he⟩ <;> rw [he] <;> simp [ih]

/-- The index of a pixel names its color in the palette found. -/
theorem scanPalette_index (L cs : List Color) (p : Nat) (h : p < cs.length) :
    (scanPalette L cs).1[(scanPalette L cs).2[p]'(by rw [scanPalette_length]; exact h)]? = some cs[p] := by
  induction cs generalizing L p with
  | nil => simp at h
  | cons c cs ih =>
    have grow : ∀ (M : List Color) (j : Nat) (hj : j < M.length) (v : Color), M[j] = v →
        (scanPalette M cs).1[j]? = some v := by
      intro M j hj v hv
      obtain ⟨ext, hext⟩ := scanPalette_prefix M cs
      rw [← hext, List.getElem?_append_left hj, List.getElem?_eq_getElem hj, hv]
    rcases scanPalette_cons L c cs with ⟨j, hj, hc, he⟩ | ⟨-, he⟩
    · cases p with
      | zero => simp only [he, List.getElem_cons_zero]; exact grow L j hj c hc
      | succ p => simp only [he, List.getElem_cons_succ]; exact ih L p (by simpa using h)
    · cases p with
      | zero =>
        simp only [he, List.getElem_cons_zero]
        exact grow (L ++ [c]) L.length (by simp) c (by simp)
      | succ p => simp only [he, List.getElem_cons_succ]; exact ih _ p (by simpa using h)

/-- No color is listed twice. -/
theorem scanPalette_nodup (L cs : List Color) (h : L.Nodup) : (scanPalette L cs).1.Nodup := by
  induction cs generalizing L with
  | nil => simpa [scanPalette] using h
  | cons c cs ih =>
    rcases scanPalette_cons L c cs with ⟨j, hj, -, he⟩ | ⟨hc, he⟩
    · rw [he]; exact ih L h
    · rw [he]
      exact ih _ (List.nodup_append.mpr ⟨h, by simp, by simp; exact fun a ha hac => hc (hac ▸ ha)⟩)

/-- The colors listed are the ones known before and the pixels'. -/
theorem mem_scanPalette (L cs : List Color) (c : Color) : c ∈ (scanPalette L cs).1 ↔ c ∈ L ∨ c ∈ cs := by
  induction cs generalizing L with
  | nil => simp [scanPalette]
  | cons d cs ih =>
    rcases scanPalette_cons L d cs with ⟨j, hj, hd, he⟩ | ⟨-, he⟩
    · rw [he]
      have : d ∈ L := hd ▸ List.getElem_mem hj
      simp only [ih, List.mem_cons]
      constructor
      · rintro (h | h) <;> simp [h]
      · rintro (h | rfl | h) <;> simp [*]
    · rw [he]
      simp only [ih, List.mem_append, List.mem_cons, List.not_mem_nil, or_false]
      tauto

/-- The palette found from nothing has one entry per distinct color of the pixels. -/
theorem length_scanPalette_nil (cs : List Color) : (scanPalette [] cs).1.length = cs.dedup.length := by
  have hp : List.Perm (scanPalette [] cs).1 cs.dedup :=
    (List.perm_ext_iff_of_nodup (scanPalette_nodup [] cs List.nodup_nil) cs.nodup_dedup).mpr fun c => by
      simp [mem_scanPalette]
  exact hp.length_eq

/-- First-seen order: where a new color is listed, the colors listed before it are those of the pixels
before its first pixel. -/
theorem scanPalette_first_seen (L cs : List Color) (j : Nat) (h0 : L.length ≤ j)
    (h : j < (scanPalette L cs).1.length) :
    ∃ p, ∃ hp : p < cs.length, cs[p] = (scanPalette L cs).1[j] ∧ cs[p] ∉ (scanPalette L cs).1.take j ∧
      ∀ c, c ∈ (scanPalette L cs).1.take j ↔ c ∈ L ∨ c ∈ cs.take p := by
  induction cs generalizing L with
  | nil => simp [scanPalette] at h; omega
  | cons c cs ih =>
    rcases scanPalette_cons L c cs with ⟨i, hi, hc, he⟩ | ⟨hc, he⟩
    · simp only [he] at h ⊢
      obtain ⟨p, hp, h1, h2, h3⟩ := ih L h0 h
      have hcL : c ∈ L := hc ▸ List.getElem_mem hi
      refine ⟨p + 1, by simpa using hp, by simpa using h1, by simpa using h2, fun d => ?_⟩
      rw [h3, List.take_succ_cons, List.mem_cons]
      constructor
      · rintro (h | h) <;> simp [h]
      · rintro (h | rfl | h) <;> simp [*]
    · simp only [he] at h ⊢
      rcases Nat.eq_or_lt_of_le h0 with rfl | hlt
      · obtain ⟨ext, hext⟩ := scanPalette_prefix (L ++ [c]) cs
        have htake : (scanPalette (L ++ [c]) cs).1.take L.length = L := by rw [← hext]; simp
        refine ⟨0, by simp, ?_, by rw [htake]; simpa using hc, fun d => by rw [htake]; simp⟩
        simp [← hext]
      · obtain ⟨p, hp, h1, h2, h3⟩ := ih (L ++ [c]) (by simp; omega) h
        refine ⟨p + 1, by simpa using hp, by simpa using h1, by simpa using h2, fun d => ?_⟩
        rw [h3, List.take_succ_cons, List.mem_cons, List.mem_append, List.mem_singleton, or_assoc]

/-- Every smaller index is the index of an earlier pixel (R141, first-seen order). -/
theorem scanPalette_index_order (L cs : List Color) (p : Nat) (h : p < cs.length) (j : Nat)
    (h0 : L.length ≤ j) (hj : j < (scanPalette L cs).2[p]'(by rw [scanPalette_length]; exact h)) :
    ∃ q, ∃ hq : q < p, (scanPalette L cs).2[q]'(by rw [scanPalette_length]; omega) = j := by
  induction cs generalizing L p with
  | nil => simp at h
  | cons c cs ih =>
    rcases scanPalette_cons L c cs with ⟨i, hi, hc, he⟩ | ⟨hc, he⟩
    · cases p with
      | zero => simp only [he, List.getElem_cons_zero] at hj; omega
      | succ p =>
        simp only [he, List.getElem_cons_succ] at hj ⊢
        obtain ⟨q, hq, h1⟩ := ih L p (by simpa using h) h0 hj
        exact ⟨q + 1, by omega, by simpa using h1⟩
    · cases p with
      | zero => simp only [he, List.getElem_cons_zero] at hj; omega
      | succ p =>
        simp only [he, List.getElem_cons_succ] at hj ⊢
        rcases Nat.eq_or_lt_of_le h0 with rfl | hlt
        · exact ⟨0, by omega, by simp⟩
        · obtain ⟨q, hq, h1⟩ := ih (L ++ [c]) p (by simpa using h) (by simp; omega) hj
          exact ⟨q + 1, by omega, by simpa using h1⟩

/-- The selected depth is 8 or less exactly for a palette of at most 256 colors (R142). -/
theorem sel_le_eight (k : Nat) : sel k ≤ 8 ↔ k ≤ 256 := by
  unfold sel; split_ifs <;> omega

theorem sel_valid {k : Nat} (h : k ≤ 256) : validDepth (sel k) := by
  unfold sel; split_ifs <;> decide

/-- Every index of a palette of `k` colors fits the selected depth. -/
theorem le_two_pow_sel {k : Nat} (h : k ≤ 256) : k ≤ 2 ^ sel k := by
  unfold sel; split_ifs <;> simp <;> omega

end Sys2Proof.Machine
end

