-- ==== Sys2Proof/Laws/Exec.lean ====
section
/-! SUPPORT. Laws/Exec.lean: everything each command can do, said once: the checks it passes and the state it
answers, or the error it raises. Later proofs cite these and do not unfold the meanings. -/

namespace Sys2Proof.Machine

variable {s t : State}

/-- What one check of a command does: the rest of the command where it holds, the error where it does not. -/
theorem State.require_next {p : Prop} [Decidable p] {e : ErrorCode} {i : Instr}
    {rest : Host.Outcome State Fault Refusal} :
    s.require p e i rest = .next t ↔ (p ∧ rest = .next t) ∨ (¬ p ∧ t = s.raise e (encode i)) := by
  unfold State.require
  split_ifs with h <;> simp [h, eq_comm]

@[simp] theorem State.require_pos {p : Prop} [Decidable p] (e : ErrorCode) (i : Instr)
    (rest : Host.Outcome State Fault Refusal) (h : p) : s.require p e i rest = rest := if_pos h

@[simp] theorem State.require_neg {p : Prop} [Decidable p] (e : ErrorCode) (i : Instr)
    (rest : Host.Outcome State Fault Refusal) (h : ¬ p) :
    s.require p e i rest = .next (s.raise e (encode i)) := if_neg h

theorem next_inj : (Host.Outcome.next s : Host.Outcome State Fault Refusal) = .next t ↔ t = s := by
  simp [eq_comm]

/-! ## The byte-buffer primitives -/

theorem execExtract_cases {k : Nat} (h : execExtract k s = .next t) :
    (∃ e, t = s.raise e (encode (.extract k))) ∨
    (validDepth s.regs.depth.toNat ∧ k < 8 / s.regs.depth.toNat ∧
      t = s.setResult (field s.argByte s.regs.depth.toNat k)) := by
  simp only [execExtract, State.require_next, next_inj] at h
  rcases h with ⟨h1, ⟨h2, h⟩ | ⟨-, h⟩⟩ | ⟨-, h⟩
  · exact .inr ⟨h1, h2, h⟩
  all_goals exact .inl ⟨_, h⟩

theorem execRdu16_cases (h : execRdu16 s = .next t) :
    (∃ e, t = s.raise e (encode .rdu16)) ∨
    (s.srcOK s.regs.srcAddr.toNat 2 ∧ t = s.setResult (s.memRead s.regs.srcAddr.toNat 2)) := by
  simp only [execRdu16, State.require_next, next_inj] at h
  exact h.symm.imp (fun h => ⟨_, h.2⟩) id

theorem execRdu32_cases (h : execRdu32 s = .next t) :
    (∃ e, t = s.raise e (encode .rdu32)) ∨
    (s.srcOK s.regs.srcAddr.toNat 4 ∧ t = s.setResult (s.memRead s.regs.srcAddr.toNat 4)) := by
  simp only [execRdu32, State.require_next, next_inj] at h
  exact h.symm.imp (fun h => ⟨_, h.2⟩) id

/-- The state a completed UNPACK answers. -/
def unpackDone (s : State) : State :=
  (s.writeDst s.regs.dstAddr.toNat
      ((unpack (s.srcBytes s.regs.srcAddr.toNat s.regs.srcCnt.toNat) s.regs.depth.toNat).map indexByte)).setResult
    (s.regs.srcCnt.toNat * (8 / s.regs.depth.toNat))

theorem execUnpack_cases (h : execUnpack s = .next t) :
    (∃ e, t = s.raise e (encode .unpack)) ∨
    (validDepth s.regs.depth.toNat ∧ s.srcOK s.regs.srcAddr.toNat s.regs.srcCnt.toNat ∧
      s.dstOK s.regs.dstAddr.toNat (s.regs.srcCnt.toNat * (8 / s.regs.depth.toNat)) ∧ t = unpackDone s) := by
  simp only [execUnpack, State.require_next, next_inj] at h
  rcases h with ⟨h1, ⟨h2, ⟨h3, h⟩ | ⟨-, h⟩⟩ | ⟨-, h⟩⟩ | ⟨-, h⟩
  · exact .inr ⟨h1, h2, h3, h⟩
  all_goals exact .inl ⟨_, h⟩

/-! ## The header and the palettes -/

/-- The state a completed HDR_BIP answers. -/
def hdrBipDone (s : State) : State :=
  { s with regs := { s.regs with
    width := BitVec.ofNat 32 (s.memRead (s.regs.srcAddr.toNat + 0x4) 2)
    height := BitVec.ofNat 32 (s.memRead (s.regs.srcAddr.toNat + 0x6) 2)
    stride := BitVec.ofNat 32 (s.memRead (s.regs.srcAddr.toNat + 0x8) 2)
    depth := BitVec.ofNat 32 (s.memRead (s.regs.srcAddr.toNat + 0xA) 2)
    palLen := BitVec.ofNat 32 (s.memRead (s.regs.srcAddr.toNat + 0xC) 2)
    transp := transpFlag (s.memRead (s.regs.srcAddr.toNat + 0xE) 2)
    palAddr := BitVec.ofNat 32 (s.regs.srcAddr.toNat + 0x10)
    pixAddr := BitVec.ofNat 32
      (s.regs.srcAddr.toNat + 0x10 + 4 * s.memRead (s.regs.srcAddr.toNat + 0xC) 2) } }

theorem execHdrBip_cases (h : execHdrBip s = .next t) :
    (∃ e, t = s.raise e (encode .hdrBip)) ∨
    (s.srcOK s.regs.srcAddr.toNat 0x10 ∧
      s.srcOK (s.regs.srcAddr.toNat + 0x10) (4 * s.memRead (s.regs.srcAddr.toNat + 0xC) 2) ∧
      t = hdrBipDone s) := by
  simp only [execHdrBip, State.require_next, next_inj] at h
  rcases h with ⟨h1, ⟨h2, h⟩ | ⟨-, h⟩⟩ | ⟨-, h⟩
  · exact .inr ⟨h1, h2, h⟩
  all_goals exact .inl ⟨_, h⟩

/-- The state a completed PLOAD_BMP answers. -/
def ploadBmpDone (s : State) : State :=
  { s with
    pal := s.pal.load (loadedColors s.bgrxAt s.regs.palAddr.toNat s.colorCount)
    regs := { s.regs with palLen := BitVec.ofNat 32 s.colorCount } }

theorem execPloadBmp_cases (h : execPloadBmp s = .next t) :
    (∃ e, t = s.raise e (encode .ploadBmp)) ∨
    (validDepth s.regs.depth.toNat ∧ s.srcOK s.regs.palAddr.toNat (4 * s.colorCount) ∧ t = ploadBmpDone s) := by
  simp only [execPloadBmp, State.require_next, next_inj] at h
  rcases h with ⟨h1, ⟨h2, h⟩ | ⟨-, h⟩⟩ | ⟨-, h⟩
  · exact .inr ⟨h1, h2, h⟩
  all_goals exact .inl ⟨_, h⟩

/-- The state a completed PLOAD_BIP answers. -/
def ploadBipDone (s : State) : State :=
  { s with
    pal := s.pal.load
      (loadedColors (fun a => (s.rgbaAt a).binarized) s.regs.palAddr.toNat s.regs.palLen.toNat) }

theorem execPloadBip_cases (h : execPloadBip s = .next t) :
    (∃ e, t = s.raise e (encode .ploadBip)) ∨
    (s.srcOK s.regs.palAddr.toNat (4 * s.regs.palLen.toNat) ∧ t = ploadBipDone s) := by
  simp only [execPloadBip, State.require_next, next_inj] at h
  exact h.symm.imp (fun h => ⟨_, h.2⟩) id

theorem execLookup_cases (h : execLookup s = .next t) :
    (∃ e, t = s.raise e (encode .lookup)) ∨
    (s.argByte.toNat < s.regs.palLen.toNat ∧ t = (s.setResult (s.palRead s.argByte.toNat).packed).drawn) := by
  simp only [execLookup, State.require_next, next_inj] at h
  exact h.symm.imp (fun h => ⟨_, h.2⟩) id

/-! ## The decodes -/

/-- The output indices of DECODE_BMP at its operand registers. -/
def State.bmpIndices (s : State) : List Nat :=
  s.bottomUpIndices s.regs.pixAddr.toNat s.regs.depth.toNat s.regs.width.toNat s.regs.height.toNat

/-- The output bytes of DECODE_BMP at its operand registers. -/
def State.bmpOutput (s : State) (m : Bool) : List Byte :=
  (s.bmpIndices.zip (s.maskBits m s.regs.maskAddr.toNat s.regs.width.toNat s.regs.height.toNat)).flatMap
    fun p => bmpPixel (s.palRead p.1) p.2

/-- The state a completed DECODE_BMP answers. -/
def decodeBmpDone (m : Bool) (s : State) : State :=
  ((s.writeDst s.regs.dstAddr.toNat (s.bmpOutput m)).setResult (s.regs.width.toNat * s.regs.height.toNat)).drawn

theorem execDecodeBmp_of_checks {m : Bool} (h : BmpChecks m s) :
    execDecodeBmp m s =
      if ∀ i ∈ s.bmpIndices, i < s.regs.palLen.toNat then .next (decodeBmpDone m s)
      else .next ((s.scrambleDst s.regs.dstAddr.toNat (4 * s.regs.width.toNat * s.regs.height.toNat)).raise
        .indexRange (encode (.decodeBmp m))) := by
  simp only [execDecodeBmp, State.require_pos _ _ _ h.depth, State.require_pos _ _ _ h.pixels,
    State.require_pos _ _ _ h.mask, State.require_pos _ _ _ h.dst]
  rfl

theorem execDecodeBmp_cases {m : Bool} (h : execDecodeBmp m s = .next t) :
    (∃ e, t = s.raise e (encode (.decodeBmp m))) ∨
    (BmpChecks m s ∧ (∀ i ∈ s.bmpIndices, i < s.regs.palLen.toNat) ∧ t = decodeBmpDone m s) ∨
    (BmpChecks m s ∧ (¬ ∀ i ∈ s.bmpIndices, i < s.regs.palLen.toNat) ∧
      t = (s.scrambleDst s.regs.dstAddr.toNat (4 * s.regs.width.toNat * s.regs.height.toNat)).raise .indexRange
        (encode (.decodeBmp m))) := by
  by_cases hc : BmpChecks m s
  · rw [execDecodeBmp_of_checks hc] at h
    split_ifs at h with h1 <;> cases h
    · exact .inr (.inl ⟨hc, h1, rfl⟩)
    · exact .inr (.inr ⟨hc, h1, rfl⟩)
  · simp only [execDecodeBmp, State.require_next] at h
    rcases h with ⟨h1, ⟨h2, ⟨h3, ⟨h4, -⟩ | ⟨-, h⟩⟩ | ⟨-, h⟩⟩ | ⟨-, h⟩⟩ | ⟨-, h⟩
    · exact absurd ⟨h1, h2, h3, h4⟩ hc
    all_goals exact .inl ⟨_, h⟩

/-- The output indices of DECODE_BIP at its operand registers. -/
def State.bipIndices (s : State) : List Nat :=
  s.topDownIndices s.regs.pixAddr.toNat s.regs.stride.toNat s.regs.depth.toNat s.regs.width.toNat
    s.regs.height.toNat

/-- The state a completed DECODE_BIP answers. -/
def decodeBipDone (s : State) : State :=
  ((s.writeDst s.regs.dstAddr.toNat (s.bipIndices.map fun i => bipByte (s.palRead i))).setResult
    (s.regs.width.toNat * s.regs.height.toNat)).drawn

theorem execDecodeBip_of_checks (h : BipChecks s) :
    execDecodeBip s =
      if ∀ i ∈ s.bipIndices, i < s.regs.palLen.toNat then .next (decodeBipDone s)
      else .next ((s.scrambleDst s.regs.dstAddr.toNat (s.regs.width.toNat * s.regs.height.toNat)).raise
        .indexRange (encode .decodeBip)) := by
  simp only [execDecodeBip, State.require_pos _ _ _ h.depth, State.require_pos _ _ _ h.stride,
    State.require_pos _ _ _ h.pixels, State.require_pos _ _ _ h.dst]
  rfl

theorem execDecodeBip_cases (h : execDecodeBip s = .next t) :
    (∃ e, t = s.raise e (encode .decodeBip)) ∨
    (BipChecks s ∧ (∀ i ∈ s.bipIndices, i < s.regs.palLen.toNat) ∧ t = decodeBipDone s) ∨
    (BipChecks s ∧ (¬ ∀ i ∈ s.bipIndices, i < s.regs.palLen.toNat) ∧
      t = (s.scrambleDst s.regs.dstAddr.toNat (s.regs.width.toNat * s.regs.height.toNat)).raise .indexRange
        (encode .decodeBip)) := by
  by_cases hc : BipChecks s
  · rw [execDecodeBip_of_checks hc] at h
    split_ifs at h with h1 <;> cases h
    · exact .inr (.inl ⟨hc, h1, rfl⟩)
    · exact .inr (.inr ⟨hc, h1, rfl⟩)
  · simp only [execDecodeBip, State.require_next] at h
    rcases h with ⟨h1, ⟨h2, ⟨h3, ⟨h4, -⟩ | ⟨-, h⟩⟩ | ⟨-, h⟩⟩ | ⟨-, h⟩⟩ | ⟨-, h⟩
    · exact absurd ⟨h1, h2, h3, h4⟩ hc
    all_goals exact .inl ⟨_, h⟩

/-! ## The indexer -/

/-- The pixels PINDEX scans at its operand registers. -/
def State.pindexPixels (s : State) : List Color :=
  s.gridPixels s.regs.srcAddr.toNat (s.regs.width.toNat * s.regs.height.toNat)

/-- The state a completed PINDEX answers where it finds at most 256 colors. -/
def pindexDone (s : State) : State :=
  { s with
    pal := s.pal.load (scanPalette [] s.pindexPixels).1
    dst := s.dst.writeBlock s.regs.dstAddr.toNat ((scanPalette [] s.pindexPixels).2.map indexByte)
    regs := { s.regs with
      depth := BitVec.ofNat 32 (sel (scanPalette [] s.pindexPixels).1.length)
      palLen := BitVec.ofNat 32 (scanPalette [] s.pindexPixels).1.length
      result := BitVec.ofNat 32 (scanPalette [] s.pindexPixels).1.length } }

/-- The state a completed PINDEX answers where it finds more than 256 colors (R143). -/
def pindexTrueColor (s : State) : State :=
  { s with
    pal := s.pal.load (scanPalette [] s.pindexPixels).1
    regs := { s.regs with
      depth := BitVec.ofNat 32 24
      palLen := BitVec.ofNat 32 257
      result := BitVec.ofNat 32 257 } }

theorem execPindex_of_checks
    (h1 : s.srcOK s.regs.srcAddr.toNat (4 * (s.regs.width.toNat * s.regs.height.toNat)))
    (h2 : s.dstOK s.regs.dstAddr.toNat (s.regs.width.toNat * s.regs.height.toNat)) :
    execPindex s =
      if (scanPalette [] s.pindexPixels).1.length ≤ 256 then .next (pindexDone s)
      else .next (pindexTrueColor s) := by
  simp only [execPindex, State.require_pos _ _ _ h1, State.require_pos _ _ _ h2]
  rfl

theorem execPindex_cases (h : execPindex s = .next t) :
    (∃ e, t = s.raise e (encode .pindex)) ∨
    (s.srcOK s.regs.srcAddr.toNat (4 * (s.regs.width.toNat * s.regs.height.toNat)) ∧
      s.dstOK s.regs.dstAddr.toNat (s.regs.width.toNat * s.regs.height.toNat) ∧
      ((scanPalette [] s.pindexPixels).1.length ≤ 256 ∧ t = pindexDone s ∨
       256 < (scanPalette [] s.pindexPixels).1.length ∧ t = pindexTrueColor s)) := by
  by_cases h1 : s.srcOK s.regs.srcAddr.toNat (4 * (s.regs.width.toNat * s.regs.height.toNat))
  · by_cases h2 : s.dstOK s.regs.dstAddr.toNat (s.regs.width.toNat * s.regs.height.toNat)
    · rw [execPindex_of_checks h1 h2] at h
      split_ifs at h with h3 <;> cases h
      · exact .inr ⟨h1, h2, .inl ⟨h3, rfl⟩⟩
      · exact .inr ⟨h1, h2, .inr ⟨not_le.mp h3, rfl⟩⟩
    · simp only [execPindex, State.require_next] at h
      rcases h with ⟨-, ⟨h2', -⟩ | ⟨-, h⟩⟩ | ⟨-, h⟩
      · exact absurd h2' h2
      all_goals exact .inl ⟨_, h⟩
  · simp only [execPindex, State.require_next] at h
    rcases h with ⟨h1', -⟩ | ⟨-, h⟩
    · exact absurd h1' h1
    · exact .inl ⟨_, h⟩

/-! ## All commands at once -/

theorem length_bmpPixel (c : Color) (b : Nat) : (bmpPixel c b).length = 4 := rfl

theorem State.length_maskBits (s : State) (m : Bool) (q W H : Nat) : (s.maskBits m q W H).length = W * H := by
  cases m
  · simp [State.maskBits]
  · simpa [State.maskBits] using s.length_bottomUpIndices (.inl rfl)

theorem State.length_bmpOutput (s : State) (m : Bool) (h : validDepth s.regs.depth.toNat) :
    (s.bmpOutput m).length = 4 * s.regs.width.toNat * s.regs.height.toNat := by
  rw [State.bmpOutput, length_flatMap_pieces _ 4 fun _ => length_bmpPixel _ _, List.length_zip,
    State.length_maskBits, State.bmpIndices, s.length_bottomUpIndices h, Nat.min_self, Nat.mul_assoc]

theorem length_pindexPixels (s : State) :
    s.pindexPixels.length = s.regs.width.toNat * s.regs.height.toNat := by
  simp [State.pindexPixels, State.gridPixels]

/-- What any command does when it answers. It raises an error and changes nothing else; or it completes, writes
no ERR and no ERRINFO, changes the palette by a load alone and DST inside its region alone; or it is a decode
with an index out of range. SRC and the Host's state stay in every case. -/
theorem exec_cases {i : Instr} (h : exec i s = .next t) :
    (∃ e, t = s.raise e (encode i)) ∨
    (t = { s with regs := t.regs, pal := t.pal, dst := t.dst, draws := t.draws } ∧
      t.regs.err = s.regs.err ∧ t.regs.errInfo = s.regs.errInfo ∧
      (t.pal = s.pal ∨ ∃ cs, t.pal = s.pal.load cs) ∧
      (t.dst = s.dst ∨ ∃ bs, t.dst = s.dst.writeBlock (dstRegion i s).1 bs ∧
        bs.length = (dstRegion i s).2 ∧ (dstRegion i s).1 + bs.length ≤ s.dstLen)) ∨
    (((∃ m, i = .decodeBmp m) ∨ i = .decodeBip) ∧ (dstRegion i s).1 + (dstRegion i s).2 ≤ s.dstLen ∧
      t = (s.scrambleDst (dstRegion i s).1 (dstRegion i s).2).raise .indexRange (encode i)) := by
  cases i with
  | extract k =>
    rcases execExtract_cases h with h | ⟨-, -, rfl⟩
    · exact .inl h
    · exact .inr (.inl ⟨rfl, rfl, rfl, .inl rfl, .inl rfl⟩)
  | unpack =>
    rcases execUnpack_cases h with h | ⟨hd, -, ho, rfl⟩
    · exact .inl h
    · have hl : ((unpack (s.srcBytes s.regs.srcAddr.toNat s.regs.srcCnt.toNat) s.regs.depth.toNat).map
          indexByte).length = s.regs.srcCnt.toNat * (8 / s.regs.depth.toNat) := by
        simp [fieldCount_eq hd]
      exact .inr (.inl ⟨rfl, rfl, rfl, .inl rfl, .inr ⟨_, rfl, hl, by rw [hl]; exact ho⟩⟩)
  | rdu16 =>
    rcases execRdu16_cases h with h | ⟨-, rfl⟩
    · exact .inl h
    · exact .inr (.inl ⟨rfl, rfl, rfl, .inl rfl, .inl rfl⟩)
  | rdu32 =>
    rcases execRdu32_cases h with h | ⟨-, rfl⟩
    · exact .inl h
    · exact .inr (.inl ⟨rfl, rfl, rfl, .inl rfl, .inl rfl⟩)
  | hdrBip =>
    rcases execHdrBip_cases h with h | ⟨-, -, rfl⟩
    · exact .inl h
    · exact .inr (.inl ⟨rfl, rfl, rfl, .inl rfl, .inl rfl⟩)
  | ploadBmp =>
    rcases execPloadBmp_cases h with h | ⟨-, -, rfl⟩
    · exact .inl h
    · exact .inr (.inl ⟨rfl, rfl, rfl, .inr ⟨_, rfl⟩, .inl rfl⟩)
  | ploadBip =>
    rcases execPloadBip_cases h with h | ⟨-, rfl⟩
    · exact .inl h
    · exact .inr (.inl ⟨rfl, rfl, rfl, .inr ⟨_, rfl⟩, .inl rfl⟩)
  | lookup =>
    rcases execLookup_cases h with h | ⟨-, rfl⟩
    · exact .inl h
    · exact .inr (.inl ⟨rfl, rfl, rfl, .inl rfl, .inl rfl⟩)
  | decodeBmp m =>
    rcases execDecodeBmp_cases h with h | ⟨hc, -, rfl⟩ | ⟨hc, -, rfl⟩
    · exact .inl h
    · have hl := s.length_bmpOutput m hc.depth
      exact .inr (.inl ⟨rfl, rfl, rfl, .inl rfl, .inr ⟨_, rfl, hl, by rw [hl]; exact hc.dst⟩⟩)
    · exact .inr (.inr ⟨.inl ⟨m, rfl⟩, hc.dst, rfl⟩)
  | decodeBip =>
    rcases execDecodeBip_cases h with h | ⟨hc, -, rfl⟩ | ⟨hc, -, rfl⟩
    · exact .inl h
    · have hl : (s.bipIndices.map fun i => bipByte (s.palRead i)).length =
          s.regs.width.toNat * s.regs.height.toNat := by
        rw [List.length_map, State.bipIndices, s.length_topDownIndices hc.depth hc.stride]
      exact .inr (.inl ⟨rfl, rfl, rfl, .inl rfl, .inr ⟨_, rfl, hl, by rw [hl]; exact hc.dst⟩⟩)
    · exact .inr (.inr ⟨.inr rfl, hc.dst, rfl⟩)
  | pindex =>
    rcases execPindex_cases h with h | ⟨-, ho, ⟨-, rfl⟩ | ⟨-, rfl⟩⟩
    · exact .inl h
    · have hl : ((scanPalette [] s.pindexPixels).2.map indexByte).length =
          s.regs.width.toNat * s.regs.height.toNat := by
        rw [List.length_map, scanPalette_length, length_pindexPixels]
      exact .inr (.inl ⟨rfl, rfl, rfl, .inr ⟨_, rfl⟩, .inr ⟨_, rfl, hl, by rw [hl]; exact ho⟩⟩)
    · exact .inr (.inl ⟨rfl, rfl, rfl, .inr ⟨_, rfl⟩, .inl rfl⟩)

/-! ## The errors a command raises -/

/-- The codes of the errors that the Block raises (R200, R201). -/
theorem ErrorCode.code_range {e : ErrorCode} (he : e ≠ .typeMismatch ∧ e ≠ .formatError) :
    3 ≤ e.code.toNat ∧ e.code.toNat ≤ 8 := by
  cases e <;> first | exact absurd rfl he.1 | exact absurd rfl he.2 | decide

/-- An outcome that leaves ERR as it is in `s` or sets it to a code that the Block raises. -/
def ErrLegal (s : State) (o : Host.Outcome State Fault Refusal) : Prop :=
  ∀ t, o = .next t → t.regs.err = s.regs.err ∨ 3 ≤ t.regs.err.toNat ∧ t.regs.err.toNat ≤ 8

theorem errLegal_next {u : State} (h : u.regs.err = s.regs.err) : ErrLegal s (.next u) := by
  intro t ht; cases ht; exact .inl h

theorem errLegal_raise {u : State} {e : ErrorCode} (w : Word) (he : e ≠ .typeMismatch ∧ e ≠ .formatError) :
    ErrLegal s (.next (u.raise e w)) := by
  intro t ht; cases ht; exact .inr (ErrorCode.code_range he)

theorem errLegal_require {p : Prop} [Decidable p] {e : ErrorCode} {i : Instr}
    {rest : Host.Outcome State Fault Refusal} (he : e ≠ .typeMismatch ∧ e ≠ .formatError)
    (h : ErrLegal s rest) : ErrLegal s (s.require p e i rest) := by
  unfold State.require
  split_ifs
  · exact h
  · exact errLegal_raise _ he

theorem errLegal_ite {p : Prop} [Decidable p] {a b : Host.Outcome State Fault Refusal}
    (ha : ErrLegal s a) (hb : ErrLegal s b) : ErrLegal s (if p then a else b) := by
  split_ifs <;> assumption

/-- A command leaves ERR as it is or sets it to a code from 3 to 8. -/
theorem exec_errLegal (i : Instr) (s : State) : ErrLegal s (exec i s) := by
  cases i <;>
    simp only [exec, execExtract, execUnpack, execRdu16, execRdu32, execHdrBip, execPloadBmp, execPloadBip,
      execLookup, execDecodeBmp, execDecodeBip, execPindex] <;>
    repeat first
      | exact errLegal_next rfl
      | exact errLegal_raise _ (by decide)
      | apply errLegal_require (by decide)
      | apply errLegal_ite

end Sys2Proof.Machine
end

