-- ==== Sys2Proof/Laws/PerInstr.lean ====
section
/-! SUPPORT. Laws/PerInstr.lean: the statements made of every command as syntax, one lemma per constructor. -/

namespace Sys2Proof.Laws.EncodesLegally

/-- The word of a well-formed command is legal by the four conditions of `30_encoding.md` R83. -/
def Statement (i : Instr) : Prop := i.wf = true → LegalWord (encode i)

theorem extract (k : Nat) : Statement (.extract k) := by
  intro h
  have hk : k ≤ 255 := of_decide_eq_true h
  rw [legalWord_iff, encode_extract_toNat hk]
  omega

theorem unpack : Statement .unpack := fun _ => by decide
theorem rdu16 : Statement .rdu16 := fun _ => by decide
theorem rdu32 : Statement .rdu32 := fun _ => by decide
theorem hdrBip : Statement .hdrBip := fun _ => by decide
theorem ploadBmp : Statement .ploadBmp := fun _ => by decide
theorem ploadBip : Statement .ploadBip := fun _ => by decide
theorem lookup : Statement .lookup := fun _ => by decide
theorem decodeBmp (m : Bool) : Statement (.decodeBmp m) := fun _ => by cases m <;> decide
theorem decodeBip : Statement .decodeBip := fun _ => by decide
theorem pindex : Statement .pindex := fun _ => by decide

end Sys2Proof.Laws.EncodesLegally
end

