-- ==== Sys2Proof/Laws/Step.lean ====
section
/-! SUPPORT. Laws/Step.lean: the register port and one step of the machine. -/

namespace Sys2Proof.Machine

variable {s t : State}

/-! ## The register port -/

theorem accessed_offset (r : Reg) : accessed r.offset 32 = .ok r := by cases r <;> rfl

/-- An admitted access is 32 bits wide and at its register's offset (R20). -/
theorem accessed_ok {off width : Nat} {r : Reg} (h : accessed off width = .ok r) : width = 32 ∧ off = r.offset := by
  unfold accessed at h
  split_ifs at h with h1 h2
  split at h
  · rename_i r' hr
    cases h
    have := List.find?_some hr
    exact ⟨not_not.mp h1, by simpa using (by simpa using this : r.offset = off).symm⟩
  · cases h

@[simp] theorem perform_write (r : Reg) (v : Word) (s : State) :
    perform (.wr r.offset 32 v) s = writeReg r v s := by
  simp [perform, accessed_offset]

@[simp] theorem perform_read (r : Reg) (s : State) :
    perform (.rd r.offset 32) s = .next (readReg r s) := by
  simp [perform, accessed_offset]

/-! ## Steps -/

theorem step_ended (h : s.fetch? = none) : step s = .next s := by simp [step, h]

theorem step_fetched {op : HostOp} (h : s.fetch? = some op) : step s = advance (perform op s) := by
  simp [step, h]

theorem advance_next {o : Host.Outcome State Fault Refusal} (h : advance o = .next t) :
    ∃ u, o = .next u ∧ t = { u with pos := u.pos + 1 } := by
  cases o with
  | next u => exact ⟨u, rfl, by simpa [advance, eq_comm] using h⟩
  | fault f => simp [advance] at h
  | refused r => simp [advance] at h

/-- The operation placed at the program position is the one fetched. -/
theorem fetch?_withOp (s : State) (op : HostOp) : (s.withOp op).fetch? = some op := by
  simp only [State.fetch?, State.withOp]
  rw [List.getElem?_append_right (by simp)]
  simp

/-- A step that fetches a command word on a Block that is not halted runs the command decoded from it, and only
moves the program position beside that. -/
theorem step_command {w : Word} {i : Instr} (hf : s.fetch? = some (.write .cmd w)) (hh : s.halted = false)
    (hd : decode w = .ok i) : step s = advance (exec i s) := by
  rw [step_fetched hf, HostOp.write, perform_write]
  simp [writeReg, issueCommand, hh, hd]

/-- Everything one step can be: the program has ended, or it is one of the Host's operations. -/
theorem step_cases (h : step s = .next t) :
    (s.fetch? = none ∧ t = s) ∨
    (∃ u, t = { u with pos := u.pos + 1 } ∧ s.pos < s.program.length ∧
      ((∃ w, s.fetch? = some (.write .cmd w) ∧ s.halted = true ∧ u = s) ∨
       (∃ w i, s.fetch? = some (.write .cmd w) ∧ s.halted = false ∧ decode w = .ok i ∧ exec i s = .next u) ∨
       (∃ w e, s.fetch? = some (.write .cmd w) ∧ s.halted = false ∧ decode w = .error e ∧
         u = s.raise .illegalCommand w) ∨
       (∃ w, s.fetch? = some (.write .ctrl w) ∧ u = writeCtrl w s) ∨
       (∃ r v, s.fetch? = some (.write r v) ∧ r ≠ .cmd ∧ r ≠ .ctrl ∧ u = { s with regs := s.regs.put v r }) ∨
       (∃ r, s.fetch? = some (.read r) ∧ u = readReg r s) ∨
       (∃ a b bs, s.fetch? = some (.wsrc a b bs) ∧ s.srcOK a (b :: bs).length ∧
         u = { s with src := s.src.writeBlock a (b :: bs) }) ∨
       (s.fetch? = some .hardReset ∧ u = s.blockReset))) := by
  cases hf : s.fetch? with
  | none => left; rw [step_ended hf] at h; cases h; exact ⟨rfl, rfl⟩
  | some op =>
    right
    rw [step_fetched hf] at h
    obtain ⟨u, hu, ht⟩ := advance_next h
    have hpos : s.pos < s.program.length := (List.getElem?_eq_some_iff.mp hf).1
    refine ⟨u, ht, hpos, ?_⟩
    cases op with
    | wr off width v =>
      simp only [perform] at hu
      cases ha : accessed off width with
      | error e => rw [ha] at hu; cases hu
      | ok r =>
        rw [ha] at hu
        obtain ⟨rfl, rfl⟩ := accessed_ok ha
        by_cases hc : r = .cmd
        · subst hc
          simp only [writeReg, issueCommand] at hu
          split_ifs at hu with hh
          · cases hu; exact .inl ⟨v, rfl, hh, rfl⟩
          · split at hu
            · rename_i i hd
              exact .inr (.inl ⟨v, i, rfl, by simpa using hh, hd, hu⟩)
            · rename_i e hd
              cases hu
              exact .inr (.inr (.inl ⟨v, e, rfl, by simpa using hh, hd, rfl⟩))
        · by_cases hl : r = .ctrl
          · subst hl; cases hu
            exact .inr (.inr (.inr (.inl ⟨v, rfl, rfl⟩)))
          · have hw : writeReg r v s = .next { s with regs := s.regs.put v r } := by
              cases r <;> first | rfl | exact absurd rfl hc | exact absurd rfl hl
            have hu : writeReg r v s = .next u := hu
            rw [hw] at hu; cases hu
            exact .inr (.inr (.inr (.inr (.inl ⟨r, v, rfl, hc, hl, rfl⟩))))
    | rd off width =>
      simp only [perform] at hu
      cases ha : accessed off width with
      | error e => rw [ha] at hu; cases hu
      | ok r =>
        rw [ha] at hu
        obtain ⟨rfl, rfl⟩ := accessed_ok ha
        cases hu
        exact .inr (.inr (.inr (.inr (.inr (.inl ⟨r, rfl, rfl⟩)))))
    | wsrc a b bs =>
      simp only [perform, writeSrc] at hu
      split_ifs at hu with hs
      cases hu
      exact .inr (.inr (.inr (.inr (.inr (.inr (.inl ⟨a, b, bs, rfl, hs, rfl⟩))))))
    | hardReset =>
      cases hu
      exact .inr (.inr (.inr (.inr (.inr (.inr (.inr ⟨rfl, rfl⟩))))))

end Sys2Proof.Machine
end

