-- ==== Sys2Proof/Tests/Slice0.lean ====
section
/-! SUPPORT. Tests/Slice0.lean: tests of one step each, with their expected values taken from `95_test_vectors.md`
and from the words of `30_encoding.md` R91 and R92, and a witness for the hypotheses of every obligation. -/

namespace Sys2Proof.Tests

open Sys2Proof Sys2Proof.Machine

/-! ## Small states -/

/-- A Block with the given registers, SRC bytes from address 0 and DST length, and no program. -/
def block (regs : RegFile) (src : List Byte) (dstLen : Nat) : State :=
  { State.powerOn (Memory.cells 0 src) src.length [] dstLen [] with regs := regs }

/-- The same with a program of one operation. -/
def about (s : State) (op : HostOp) : State := { s with program := [op] }

/-- The outcome is a next state with the property. -/
def answers (o : Host.Outcome State Fault Refusal) (p : State → Bool) : Bool :=
  match o with
  | .next t => p t
  | _ => false

theorem next_of_answers {o : Host.Outcome State Fault Refusal} {p : State → Bool} (h : answers o p = true) :
    ∃ t, o = .next t ∧ p t = true := by
  cases o with
  | next t => exact ⟨t, rfl, h⟩
  | fault f => cases h
  | refused r => cases h

/-- Decoding gives exactly this command. -/
def decodesTo (w : Word) (i : Instr) : Bool :=
  match decode w with
  | .ok j => j == i
  | .error _ => false

theorem decode_of_decodesTo {w : Word} {i : Instr} (h : decodesTo w i = true) : decode w = .ok i := by
  unfold decodesTo at h
  split at h
  · rename_i j hj; rw [hj, eq_of_beq h]
  · cases h

/-- DST bytes from `a` on. -/
def dstBytes (t : State) (a n : Nat) : List Byte := (List.range n).map fun j => t.dst.read (a + j)

/-! ## WellFormed -/

theorem test_wf_refuses_extract_256 : Instr.wf (.extract 256) = false := by decide
theorem test_wf_admits_extract_255 : Instr.wf (.extract 255) = true := by decide
theorem test_assemble_refuses_extract_256 : HostOp.assemble (.extract 256) = none := by decide

/-! ## Decoding: every row of R82, its word written out from the fields of R80
`[31:24] reserved | [23:16] K | [15:9] reserved | [8] M | [7:0] OP` -/

theorem test_decode_extract : decodesTo 0b00000000_00000011_0000000_0_00000001 (.extract 3) = true := by decide
theorem test_decode_extract_255 : decodesTo 0b00000000_11111111_0000000_0_00000001 (.extract 255) = true := by decide
theorem test_decode_unpack : decodesTo 0b00000000_00000000_0000000_0_00000010 .unpack = true := by decide
theorem test_decode_rdu16 : decodesTo 0b00000000_00000000_0000000_0_00000011 .rdu16 = true := by decide
theorem test_decode_rdu32 : decodesTo 0b00000000_00000000_0000000_0_00000100 .rdu32 = true := by decide
theorem test_decode_hdrBip : decodesTo 0b00000000_00000000_0000000_0_00000101 .hdrBip = true := by decide
theorem test_decode_ploadBmp : decodesTo 0b00000000_00000000_0000000_0_00000110 .ploadBmp = true := by decide
theorem test_decode_ploadBip : decodesTo 0b00000000_00000000_0000000_0_00000111 .ploadBip = true := by decide
theorem test_decode_lookup : decodesTo 0b00000000_00000000_0000000_0_00001000 .lookup = true := by decide
theorem test_decode_decodeBmp : decodesTo 0b00000000_00000000_0000000_0_00001001 (.decodeBmp false) = true := by decide
theorem test_decode_decodeBmp_mask : decodesTo 0b00000000_00000000_0000000_1_00001001 (.decodeBmp true) = true := by decide
theorem test_decode_decodeBip : decodesTo 0b00000000_00000000_0000000_0_00001010 .decodeBip = true := by decide
theorem test_decode_pindex : decodesTo 0b00000000_00000000_0000000_0_00001011 .pindex = true := by decide

/-- V-EN1 to V-EN6: none of these words is legal. -/
theorem test_decode_illegal :
    ([0x00000000, 0x0000000C, 0x00000102, 0x00010002, 0x01000001, 0x00000200].map (decodeTableWord 32)) =
      [none, none, none, none, none, none] := by decide

theorem test_decodeTableWord : decodeTableWord 32 0x00030001 = some (.extract 3) := by decide

/-- The first step after reset runs the placed word (V-PI5: an empty grid gives DEPTH 1). -/
theorem test_withFetchWord_runs :
    answers (step (State.reset.withFetchWord 32 0x0B)) (fun t => t.regs.depth == 1 && t.pos == 1) = true := by
  decide

/-- HDR_BIP of zero bytes at the first step after reset: PAL_ADDR and PIX_ADDR are 0x10 (R161). -/
theorem test_withFetchWord_hdrBip :
    answers (step (State.reset.withFetchWord 32 0x05)) (fun t => t.regs.palAddr == 0x10 && t.regs.pixAddr == 0x10)
      = true := by decide

/-! ## EXTRACT (2.2) -/

def extractAt (depth arg : Word) : State := block { RegFile.reset with depth := depth, arg := arg } [] 0

/-- V-EX2, K = 1. -/
theorem test_extract_field : answers (exec (.extract 1) (extractAt 2 0xB4)) (fun t => t.regs.result == 3) = true := by
  decide

/-- V-EX9: the depth is checked before the range of K. -/
theorem test_extract_priority :
    answers (exec (.extract 9) (extractAt 3 0xB4)) (fun t => t.regs.err == 3 && t.regs.errInfo == 0x00090001)
      = true := by decide

/-! ## UNPACK (2.3) -/

def unpackAt (depth cnt : Word) (dstLen : Nat) : State :=
  block { RegFile.reset with depth := depth, srcCnt := cnt } [0xB4, 0x1F] dstLen

/-- V-UN2. -/
theorem test_unpack_row :
    answers (exec .unpack (unpackAt 2 2 16))
      (fun t => dstBytes t 0 9 == [2, 3, 1, 0, 0, 1, 3, 3, 0] && t.regs.result == 8) = true := by decide

/-- V-UN8. -/
theorem test_unpack_overflow :
    answers (exec .unpack (unpackAt 1 2 15)) (fun t => t.regs.err == 8 && t.dst == []) = true := by decide

/-! ## RDU16 and RDU32 (2.4) -/

def readAt (a : Word) : State := block { RegFile.reset with srcAddr := a } [0x42, 0x4D, 0x64, 0x00] 0

/-- V-RD3. -/
theorem test_rdu16_unaligned : answers (exec .rdu16 (readAt 1)) (fun t => t.regs.result == 0x644D) = true := by
  decide
/-- V-RD5. -/
theorem test_rdu16_past_end : answers (exec .rdu16 (readAt 3)) (fun t => t.regs.err == 5) = true := by decide
/-- V-RD2. -/
theorem test_rdu32_magic : answers (exec .rdu32 (readAt 0)) (fun t => t.regs.result == 0x00644D42) = true := by
  decide
/-- V-RD6. -/
theorem test_rdu32_past_end : answers (exec .rdu32 (readAt 1)) (fun t => t.regs.err == 5) = true := by decide

/-! ## PLOAD_BMP and LOOKUP (2.5) -/

def ploadBmpAt (depth palLen : Word) (src : List Byte) : State :=
  block { RegFile.reset with depth := depth, palLen := palLen } src 0

/-- V-PB2: the default count `2^1`. -/
theorem test_ploadBmp_default :
    answers (exec .ploadBmp (ploadBmpAt 1 0 [0x00, 0x00, 0xFF, 0x00, 0x00, 0xFF, 0x00, 0x00]))
      (fun t => t.pal == [(0, ⟨0xFF, 0, 0, 0⟩), (1, ⟨0, 0xFF, 0, 0⟩)] && t.regs.palLen == 2) = true := by decide

/-- V-PB3. -/
theorem test_ploadBmp_truncated :
    answers (exec .ploadBmp (ploadBmpAt 2 0 [0x00, 0x00, 0xFF, 0x00, 0x00, 0xFF, 0x00, 0x00]))
      (fun t => t.regs.err == 5 && t.pal == [] && t.regs.palLen == 0) = true := by decide

def lookupAt (palLen arg : Word) (pal : Palette) : State :=
  { block { RegFile.reset with palLen := palLen, arg := arg } [] 0 with pal := pal }

/-- V-LU5. -/
theorem test_lookup_packs :
    answers (exec .lookup (lookupAt 1 0 [(0, ⟨0x30, 0x20, 0x10, 0x40⟩)]))
      (fun t => t.regs.result == 0x40102030) = true := by decide

/-- V-LU4. -/
theorem test_lookup_empty :
    answers (exec .lookup (lookupAt 0 0 [])) (fun t => t.regs.err == 6 && t.regs.errInfo == 8) = true := by decide

/-! ## DECODE_BMP (2.6) -/

def palDB4 : Palette := [(0, ⟨0xFF, 0, 0, 0⟩), (1, ⟨0, 0xFF, 0, 0⟩)]

/-- The setup of V-DB4: pixel rows at 0, mask rows at 8. -/
def bmpAt (palLen : Word) (dstLen : Nat) : State :=
  { block { RegFile.reset with depth := 1, width := 2, height := 2, palLen := palLen, maskAddr := 8 }
      [0x80, 0, 0, 0, 0x40, 0, 0, 0, 0x40, 0, 0, 0, 0, 0, 0, 0] dstLen with pal := palDB4 }

/-- V-DB4. -/
theorem test_decodeBmp_mask :
    answers (exec (.decodeBmp true) (bmpAt 2 16)) (fun t => t.regs.result == 4 && dstBytes t 0 16 ==
      [0xFF, 0, 0, 0xFF, 0, 0xFF, 0, 0xFF, 0, 0xFF, 0, 0xFF, 0xFF, 0, 0, 0]) = true := by decide

/-- V-DB5's error: a mapped index at or above PAL_LEN. -/
theorem test_decodeBmp_indexRange :
    answers (exec (.decodeBmp false) (bmpAt 1 16)) (fun t => t.regs.err == 6 && t.regs.errInfo == 9) = true := by
  decide

/-! ## PINDEX (2.7) -/

def gridAt (w h : Word) (src : List Byte) (dstLen : Nat) : State :=
  block { RegFile.reset with width := w, height := h } src dstLen

/-- V-PI3. -/
theorem test_pindex_first_seen :
    answers (exec .pindex (gridAt 3 2
      [0xFF, 0, 0, 0xFF, 0, 0xFF, 0, 0xFF, 0xFF, 0, 0, 0xFF,
       0xFF, 0, 0, 0xFF, 0, 0, 0xFF, 0xFF, 0, 0xFF, 0, 0xFF] 6))
      (fun t => dstBytes t 0 6 == [0, 1, 0, 0, 2, 1] && t.regs.depth == 4 && t.regs.palLen == 3
        && t.regs.result == 3) = true := by decide

/-- V-PI4: alpha distinguishes. -/
theorem test_pindex_alpha :
    answers (exec .pindex (gridAt 2 1 [0xFF, 0xFF, 0xFF, 0xFF, 0xFF, 0xFF, 0xFF, 0] 2))
      (fun t => dstBytes t 0 2 == [0, 1] && t.regs.depth == 1) = true := by decide

/-! ## HDR_BIP, PLOAD_BIP and DECODE_BIP (2.8) -/

/-- Asset P2. -/
def assetP2 : List Byte :=
  [0x42, 0x4D, 0x64, 0, 2, 0, 2, 0, 1, 0, 1, 0, 2, 0, 1, 0, 0, 0, 0, 0xFF, 0xFF, 0x80, 0x81, 0, 0x40, 0x80]

/-- V-HB1. -/
theorem test_hdrBip_fields :
    answers (exec .hdrBip (block RegFile.reset assetP2 4)) (fun t => t.regs ==
      { RegFile.reset with
        width := 2, height := 2, stride := 1, depth := 1, palLen := 2, transp := 1
        palAddr := 0x10, pixAddr := 0x18 }) = true := by decide

/-- V-HB2. -/
theorem test_hdrBip_truncated :
    answers (exec .hdrBip (block RegFile.reset (assetP2.take 15) 4)) (fun t => t.regs.err == 5) = true := by decide

/-- V-PL1 and V-PL3: the threshold is above 128. -/
theorem test_ploadBip_threshold :
    answers (exec .ploadBip (block { RegFile.reset with palLen := 2 }
      [0xFF, 0x80, 0x81, 0x00, 0x80, 0x80, 0x80, 0x80] 0))
      (fun t => t.pal == [(0, ⟨0xFF, 0, 0xFF, 0⟩), (1, ⟨0, 0, 0, 0⟩)]) = true := by decide

/-- The setup of V-DI4. -/
def bipAt (depth stride palLen height : Word) (dstLen : Nat) : State :=
  { block { RegFile.reset with depth := depth, width := 3, height := height, stride := stride, palLen := palLen }
      [0x01, 0x2F] dstLen with
    pal := [(0, ⟨0, 0, 0, 0⟩), (1, ⟨0xFF, 0xFF, 0xFF, 0xFF⟩), (2, ⟨0xFF, 0, 0, 0xFF⟩)] }

/-- V-DI4: the padding index 15 is ignored. -/
theorem test_decodeBip_row :
    answers (exec .decodeBip (bipAt 4 2 3 1 3)) (fun t => dstBytes t 0 3 == [0, 0x0F, 9] && t.regs.result == 3)
      = true := by decide

/-- V-DI3's shape: the stride is not checked where there is no row. -/
theorem test_decodeBip_no_rows :
    answers (exec .decodeBip (bipAt 4 7 3 0 3)) (fun t => t.regs.err == 0 && t.regs.result == 0) = true := by decide

/-! ## Steps (2.9) -/

/-- A Block with the error 7 of V-EN2. -/
def haltedBlock : State := block { RegFile.reset with err := 7, errInfo := 0x0C, arg := 0xB4 } [0, 0] 0

/-- V-EN7. -/
theorem test_step_halted_ignores :
    answers (step (about haltedBlock (.write .cmd 0x0B))) (fun t => t ==
      { about haltedBlock (.write .cmd 0x0B) with pos := 1 }) = true := by decide

/-- V-EN8. -/
theorem test_step_soft_reset :
    answers (step (about haltedBlock .srst)) (fun t => t.regs == RegFile.reset && !t.halted) = true := by decide

/-! ## Witnesses: a state and operands that meet each obligation's hypotheses, one for each clause -/

def fresh : State := block RegFile.reset [0, 0] 4

theorem test_witness_DecodeOfEncode : Instr.wf (.extract 255) = true ∧ Instr.wf (.decodeBmp true) = true := by decide

theorem test_witness_EncodeOfDecode : decode 0x00FF0001 = .ok (.extract 255) := decode_of_decodesTo (by decide)

/-- The EXTRACT and DECODE_BMP rows at the last value of their operands. -/
theorem test_witness_OpcodeTableRows :
    decode 0x00FF0001 = .ok (.extract 255) ∧ decode 0x00000109 = .ok (.decodeBmp true) :=
  ⟨decode_of_decodesTo (by decide), decode_of_decodesTo (by decide)⟩

theorem test_witness_IllegalWords :
    ((¬ ∃ i, decode 0x0000000C = .ok i) ∧ (about fresh (.write .cmd 0x0C)).halted = false ∧
      (about fresh (.write .cmd 0x0C)).fetch? = some (.write .cmd 0x0C)) ∧
    (8 ≤ 255 ∧ validDepth (extractAt 1 0).regs.depth.toNat ∧ 8 / (extractAt 1 0).regs.depth.toNat ≤ 8) ∧
    (validDepth (extractAt 8 0).regs.depth.toNat ∧ 8 / (extractAt 8 0).regs.depth.toNat ≤ 1) := by
  refine ⟨⟨fun h => ?_, by decide, by decide⟩, by decide, by decide⟩
  obtain ⟨i, h⟩ := h
  cases h

theorem test_witness_StepRuns :
    ∃ t, (about fresh (.write .cmd 0x0B)).fetch? = some (.write .cmd 0x0B) ∧
      (about fresh (.write .cmd 0x0B)).halted = false ∧ decode 0x0B = .ok .pindex ∧
      exec .pindex (about fresh (.write .cmd 0x0B)) = .next t :=
  have ⟨t, h, _⟩ := next_of_answers (o := exec .pindex (about fresh (.write .cmd 0x0B))) (p := fun _ => true)
    (by decide)
  ⟨t, by decide, by decide, decode_of_decodesTo (by decide), h⟩

theorem test_witness_HaltedIgnores :
    (about haltedBlock (.wr 0x00 32 0x0B)).regs.err ≠ 0 ∧
    (about haltedBlock (.wr 0x00 32 0x0B)).fetch? = some (.wr 0x00 32 0x0B) := by decide

/-- A hardware reset, a soft reset, and an operation that is neither. -/
theorem test_witness_OnlyResetLeaves :
    haltedBlock.regs.err ≠ 0 ∧
    (∃ t, step (about haltedBlock .hardReset) = .next t ∧ t.regs.err = 0) ∧
    (∃ t, step (about haltedBlock (.wr 0x08 32 3)) = .next t ∧ t.regs.err = 0) ∧
    (∃ t, step (about haltedBlock (.wr 0x08 32 2)) = .next t ∧ t.regs.err = 7) := by
  have h1 := next_of_answers (o := step (about haltedBlock .hardReset)) (p := fun t => decide (t.regs.err = 0))
    (by decide)
  have h2 := next_of_answers (o := step (about haltedBlock (.wr 0x08 32 3))) (p := fun t => decide (t.regs.err = 0))
    (by decide)
  have h3 := next_of_answers (o := step (about haltedBlock (.wr 0x08 32 2))) (p := fun t => decide (t.regs.err = 7))
    (by decide)
  simp only [decide_eq_true_eq] at h1 h2 h3
  exact ⟨by decide, h1, h2, h3⟩

/-- A reset clears ERR, and a command sets it. -/
theorem test_witness_ErrIsWritten :
    (∃ t, step (about haltedBlock .hardReset) = .next t ∧ t.regs.err ≠ haltedBlock.regs.err) ∧
    (∃ t, step (about fresh (.wr 0x00 32 0x02)) = .next t ∧ t.regs.err ≠ fresh.regs.err) := by
  have h1 := next_of_answers (o := step (about haltedBlock .hardReset))
    (p := fun t => decide (t.regs.err ≠ haltedBlock.regs.err)) (by decide)
  have h2 := next_of_answers (o := step (about fresh (.wr 0x00 32 0x02)))
    (p := fun t => decide (t.regs.err ≠ fresh.regs.err)) (by decide)
  simp only [decide_eq_true_eq] at h1 h2
  exact ⟨h1, h2⟩

/-- R21's last RW offset and its last read-only one, on a halted Block. -/
theorem test_witness_RegisterWrite :
    (∀ row ∈ [(0x3C, Reg.arg, { haltedBlock.regs with arg := 5 }), (0x44, Reg.transp, haltedBlock.regs)], row ∈ ([
      (0x04, .status, haltedBlock.regs),
      (0x0C, .errInfo, haltedBlock.regs),
      (0x40, .result, haltedBlock.regs),
      (0x44, .transp, haltedBlock.regs),
      (0x10, .srcAddr, { haltedBlock.regs with srcAddr := 5 }),
      (0x14, .srcCnt, { haltedBlock.regs with srcCnt := 5 }),
      (0x18, .dstAddr, { haltedBlock.regs with dstAddr := 5 }),
      (0x1C, .depth, { haltedBlock.regs with depth := 5 }),
      (0x20, .width, { haltedBlock.regs with width := 5 }),
      (0x24, .height, { haltedBlock.regs with height := 5 }),
      (0x28, .stride, { haltedBlock.regs with stride := 5 }),
      (0x2C, .palAddr, { haltedBlock.regs with palAddr := 5 }),
      (0x30, .palLen, { haltedBlock.regs with palLen := 5 }),
      (0x34, .pixAddr, { haltedBlock.regs with pixAddr := 5 }),
      (0x38, .maskAddr, { haltedBlock.regs with maskAddr := 5 }),
      (0x3C, .arg, { haltedBlock.regs with arg := 5 })] : List (Nat × Reg × RegFile))) ∧
    (about haltedBlock (.wr 0x3C 32 5)).fetch? = some (.wr 0x3C 32 5) ∧
    (about haltedBlock (.wr 0x44 32 5)).fetch? = some (.wr 0x44 32 5) := by decide

/-- The first and the last offset of R21. -/
theorem test_witness_RegisterRead :
    (∀ row ∈ [(0x00, Reg.cmd, 0), (0x44, Reg.transp, (0 : BitVec 31) ++ haltedBlock.regs.transp)], row ∈ ([
      (0x00, .cmd, 0),
      (0x04, .status, (0 : BitVec 28) ++ haltedBlock.regs.err),
      (0x08, .ctrl, 0),
      (0x0C, .errInfo, haltedBlock.regs.errInfo),
      (0x10, .srcAddr, haltedBlock.regs.srcAddr),
      (0x14, .srcCnt, haltedBlock.regs.srcCnt),
      (0x18, .dstAddr, haltedBlock.regs.dstAddr),
      (0x1C, .depth, haltedBlock.regs.depth),
      (0x20, .width, haltedBlock.regs.width),
      (0x24, .height, haltedBlock.regs.height),
      (0x28, .stride, haltedBlock.regs.stride),
      (0x2C, .palAddr, haltedBlock.regs.palAddr),
      (0x30, .palLen, haltedBlock.regs.palLen),
      (0x34, .pixAddr, haltedBlock.regs.pixAddr),
      (0x38, .maskAddr, haltedBlock.regs.maskAddr),
      (0x3C, .arg, haltedBlock.regs.arg),
      (0x40, .result, haltedBlock.regs.result),
      (0x44, .transp, (0 : BitVec 31) ++ haltedBlock.regs.transp)] : List (Nat × Reg × Word))) ∧
    (about haltedBlock (.rd 0x00 32)).fetch? = some (.rd 0x00 32) ∧
    (about haltedBlock (.rd 0x44 32)).fetch? = some (.rd 0x44 32) := by decide

/-- R21's offset of WIDTH, written out: the write reaches WIDTH alone. -/
theorem test_write_width :
    answers (step (about fresh (.wr 0x20 32 7))) (fun t => t.regs == { RegFile.reset with width := 7 }) = true := by
  decide

/-- The last offset is admitted; the next one, a misaligned one and a 16-bit access are not. -/
theorem test_port_boundaries :
    (answers (perform (.wr 0x44 32 1) fresh) (fun _ => true) = true) ∧
    (answers (perform (.wr 0x48 32 1) fresh) (fun _ => true) = false) ∧
    (answers (perform (.rd 0x42 32) fresh) (fun _ => true) = false) ∧
    (answers (perform (.rd 0x44 16) fresh) (fun _ => true) = false) := by decide

theorem test_witness_CtrlWrite :
    ((about haltedBlock (.wr 0x08 32 3)).fetch? = some (.wr 0x08 32 3) ∧ (3 : Word).getLsbD 0 = true) ∧
    ((about haltedBlock (.wr 0x08 32 2)).fetch? = some (.wr 0x08 32 2) ∧ (2 : Word).getLsbD 0 = false) := by decide

theorem test_witness_HardwareReset : (about haltedBlock .hardReset).fetch? = some .hardReset := by decide

/-- SRC_LEN is 2: the last write that fits, and the first that does not. -/
theorem test_witness_SrcWrite :
    ((about fresh (.wsrc 0 1 [2])).fetch? = some (.wsrc 0 1 [2]) ∧ 0 + (1 + 1) ≤ (about fresh (.wsrc 0 1 [2])).srcLen) ∧
    ((about fresh (.wsrc 1 1 [2])).fetch? = some (.wsrc 1 1 [2]) ∧
      (about fresh (.wsrc 1 1 [2])).srcLen < 1 + (1 + 1)) := by decide

/-- A program that has one operation left, and one that has ended. -/
theorem test_witness_ProgramPosition :
    (∃ t, step (about fresh .srst) = .next t ∧ (about fresh .srst).pos < (about fresh .srst).program.length) ∧
    (∃ t, step fresh = .next t ∧ fresh.program.length ≤ fresh.pos) :=
  have ⟨t, h, _⟩ := next_of_answers (o := step (about fresh .srst)) (p := fun _ => true) (by decide)
  have ⟨u, h', _⟩ := next_of_answers (o := step fresh) (p := fun _ => true) (by decide)
  ⟨⟨t, h, by decide⟩, ⟨u, h', by decide⟩⟩

/-- The least and the largest depth with their last field; an element of a row; a bip row at its bound. -/
theorem test_witness_Fields :
    (validDepth 1 ∧ 7 < 8 / 1) ∧ (validDepth 8 ∧ 0 < 8 / 8) ∧
    ([0xB4, 0x1F] : List Byte)[15 / (8 / 1)]? = some 0x1F ∧
    bipRowLen 9 1 ≤ ([0, 0] : List Byte).length := by decide

theorem test_witness_Extract :
    (validDepth (extractAt 1 0).regs.depth.toNat ∧ 7 < 8 / (extractAt 1 0).regs.depth.toNat) ∧
    (¬ validDepth (extractAt 3 0).regs.depth.toNat) ∧
    (validDepth (extractAt 1 0).regs.depth.toNat ∧ 8 / (extractAt 1 0).regs.depth.toNat ≤ 8) := by decide

/-- UNPACK: both regions exactly fill their spaces; and each check's failure, at its boundary. -/
theorem test_witness_Unpack :
    (validDepth (unpackAt 1 2 16).regs.depth.toNat ∧
      (unpackAt 1 2 16).regs.srcAddr.toNat + (unpackAt 1 2 16).regs.srcCnt.toNat ≤ (unpackAt 1 2 16).srcLen ∧
      (unpackAt 1 2 16).regs.dstAddr.toNat +
        (unpackAt 1 2 16).regs.srcCnt.toNat * (8 / (unpackAt 1 2 16).regs.depth.toNat) ≤ (unpackAt 1 2 16).dstLen) ∧
    ¬ validDepth (unpackAt 16 2 16).regs.depth.toNat ∧
    (unpackAt 8 3 16).srcLen < (unpackAt 8 3 16).regs.srcAddr.toNat + (unpackAt 8 3 16).regs.srcCnt.toNat ∧
    (unpackAt 1 2 15).dstLen < (unpackAt 1 2 15).regs.dstAddr.toNat +
      (unpackAt 1 2 15).regs.srcCnt.toNat * (8 / (unpackAt 1 2 15).regs.depth.toNat) := by decide

theorem test_witness_Rdu :
    (readAt 2).regs.srcAddr.toNat + 2 ≤ (readAt 2).srcLen ∧ (readAt 3).srcLen < (readAt 3).regs.srcAddr.toNat + 2 ∧
    (readAt 0).regs.srcAddr.toNat + 4 ≤ (readAt 0).srcLen ∧ (readAt 1).srcLen < (readAt 1).regs.srcAddr.toNat + 4 := by
  decide

/-- PLOAD_BMP: a palette that exactly fits, one byte too few, and a bad depth; the count is `2^DEPTH` in the
first. -/
theorem test_witness_PloadBmp :
    (2 = (if (ploadBmpAt 1 0 [0, 0, 0, 0, 0, 0, 0, 0]).regs.palLen = 0
        then 2 ^ (ploadBmpAt 1 0 [0, 0, 0, 0, 0, 0, 0, 0]).regs.depth.toNat
        else (ploadBmpAt 1 0 [0, 0, 0, 0, 0, 0, 0, 0]).regs.palLen.toNat) ∧
      validDepth (ploadBmpAt 1 0 [0, 0, 0, 0, 0, 0, 0, 0]).regs.depth.toNat ∧
      (ploadBmpAt 1 0 [0, 0, 0, 0, 0, 0, 0, 0]).regs.palAddr.toNat + 4 * 2 ≤
        (ploadBmpAt 1 0 [0, 0, 0, 0, 0, 0, 0, 0]).srcLen) ∧
    (ploadBmpAt 1 2 [0, 0, 0, 0, 0, 0, 0]).srcLen < (ploadBmpAt 1 2 [0, 0, 0, 0, 0, 0, 0]).regs.palAddr.toNat + 4 * 2 ∧
    ¬ validDepth (ploadBmpAt 16 2 []).regs.depth.toNat := by decide

/-- LOOKUP: the last index in range, the first out of range, and an index in range that no load has written. -/
theorem test_witness_Lookup :
    (((lookupAt 2 1 palDB4).regs.arg.extractLsb 7 0).toNat < (lookupAt 2 1 palDB4).regs.palLen.toNat ∧
      (lookupAt 2 1 palDB4).pal.entry? 1 = some ⟨0, 0xFF, 0, 0⟩) ∧
    ((lookupAt 2 2 palDB4).regs.palLen.toNat ≤ ((lookupAt 2 2 palDB4).regs.arg.extractLsb 7 0).toNat) ∧
    (((lookupAt 2 1 []).regs.arg.extractLsb 7 0).toNat < (lookupAt 2 1 []).regs.palLen.toNat ∧
      (lookupAt 2 1 []).pal.entry? 1 = none) := by decide

/-- DECODE_BMP of V-DB4 with and without the mask: the regions exactly fill SRC and DST. -/
theorem test_witness_DecodeBmpWrites :
    (∀ m, BmpChecks m (bmpAt 2 16)) ∧
    (∀ x y, x < (bmpAt 2 16).regs.width.toNat → y < (bmpAt 2 16).regs.height.toNat →
      (bmpAt 2 16).bmpIndexAt x y < (bmpAt 2 16).regs.palLen.toNat) := by
  refine ⟨fun m => ⟨by decide, by decide, fun _ => by decide, by decide⟩, fun x y hx hy => ?_⟩
  have h : ∀ x, x < (bmpAt 2 16).regs.width.toNat → ∀ y, y < (bmpAt 2 16).regs.height.toNat →
      (bmpAt 2 16).bmpIndexAt x y < (bmpAt 2 16).regs.palLen.toNat := by decide
  exact h x hx y hy

/-- DECODE_BMP's four checks, each failing by the least amount where it can. -/
theorem test_witness_DecodeBmpTraps :
    (¬ validDepth { (bmpAt 2 16) with regs := { (bmpAt 2 16).regs with depth := 24 } }.regs.depth.toNat) ∧
    (¬ { (bmpAt 2 16) with srcLen := 7 }.regs.pixAddr.toNat + bmpStride 2 1 * 2 ≤ 7) ∧
    ((bmpAt 2 16).regs.pixAddr.toNat + bmpStride 2 1 * 2 ≤ 15 ∧
      ¬ (bmpAt 2 16).regs.maskAddr.toNat + bmpStride 2 1 * 2 ≤ 15) ∧
    ((bmpAt 2 15).regs.maskAddr.toNat + bmpStride 2 1 * 2 ≤ (bmpAt 2 15).srcLen ∧
      (bmpAt 2 15).dstLen < (bmpAt 2 15).regs.dstAddr.toNat +
        4 * (bmpAt 2 15).regs.width.toNat * (bmpAt 2 15).regs.height.toNat) := by decide

theorem test_witness_DecodeBmpIndexRange :
    BmpChecks true (bmpAt 1 16) ∧ 1 < (bmpAt 1 16).regs.width.toNat ∧ 0 < (bmpAt 1 16).regs.height.toNat ∧
    (bmpAt 1 16).regs.palLen.toNat ≤ (bmpAt 1 16).bmpIndexAt 1 0 :=
  ⟨⟨by decide, by decide, fun _ => by decide, by decide⟩, by decide, by decide, by decide⟩

theorem test_witness_DecodeBmpAgrees :
    (bmpAt 2 16).regs.err = 0 ∧ (∃ t, exec (.decodeBmp true) (bmpAt 2 16) = .next t ∧ t.regs.err = 0) ∧
    1 < (bmpAt 2 16).regs.width.toNat ∧ 1 < (bmpAt 2 16).regs.height.toNat ∧
    (0 : Word).toNat = (bmpAt 2 16).bmpIndexAt 1 1 := by
  have h := next_of_answers (o := exec (.decodeBmp true) (bmpAt 2 16)) (p := fun t => decide (t.regs.err = 0))
    (by decide)
  simp only [decide_eq_true_eq] at h
  exact ⟨by decide, h, by decide, by decide, by decide⟩

/-- The grid `A B` of V-PI1, with its packed row at 8 as in program P4 and its BGR palette at 12. -/
def gridAB (dstLen : Nat) : State :=
  gridAt 2 1 [0xFF, 0, 0, 0xFF, 0, 0xFF, 0, 0xFF, 0x40, 0, 0, 0, 0, 0, 0xFF, 0, 0, 0xFF, 0, 0] dstLen

theorem test_witness_PindexFinds :
    (gridAB 2).regs.srcAddr.toNat + 4 * (gridAB 2).gridSize ≤ (gridAB 2).srcLen ∧
    (gridAB 2).regs.dstAddr.toNat + (gridAB 2).gridSize ≤ (gridAB 2).dstLen ∧ 2 = (gridAB 2).distinctColors := by
  decide

/-- The SRC bytes of pixel `p` of V-PI6's grid. -/
def pixelPI6 (p : Nat) : List Byte := [BitVec.ofNat 8 p, BitVec.ofNat 8 (p / 256), 0, 0xFF]

/-- V-PI6: 257 pixels of 257 colors. -/
def grid257 : State := gridAt 257 1 ((List.range 257).flatMap pixelPI6) 257

/-- Channel `c` of pixel `p` of V-PI6's grid. -/
theorem grid257_byte (p c : Nat) (hp : p < 257) (hc : c < 4) :
    some (grid257.srcByte (0 + 4 * p + c)) = (pixelPI6 p)[c]? := by
  have h := getElem?_flatMap_pieces pixelPI6 4 (fun _ => rfl) (List.range 257) p c hc
  rw [List.getElem?_range hp, Option.bind_some] at h
  obtain ⟨h1, h2⟩ := List.getElem?_eq_some_iff.mp (h.trans (List.getElem?_eq_getElem hc))
  have h3 := Memory.read_cells 0 _ _ h1
  rw [h2, ← Nat.add_assoc] at h3
  rw [List.getElem?_eq_getElem (l := pixelPI6 p) hc]
  exact congrArg some h3

theorem test_witness_PindexTrueColor :
    grid257.regs.srcAddr.toNat + 4 * grid257.gridSize ≤ grid257.srcLen ∧
    grid257.regs.dstAddr.toNat + grid257.gridSize ≤ grid257.dstLen ∧ 256 < grid257.distinctColors := by
  have hlen : ((List.range 257).flatMap pixelPI6).length = 4 * 257 := by
    rw [length_flatMap_pieces pixelPI6 4 (fun _ => rfl), List.length_range]
  refine ⟨Nat.le_of_eq (Eq.symm hlen), by decide, ?_⟩
  have inj : ∀ p ∈ List.range 257, ∀ q ∈ List.range 257, grid257.gridPixel p = grid257.gridPixel q → p = q := by
    intro p hp q hq h
    have hp := List.mem_range.mp hp
    have hq := List.mem_range.mp hq
    have r : BitVec.ofNat 8 p = BitVec.ofNat 8 q := by
      have := congrArg Color.r h
      have e1 := grid257_byte p 0 hp (by decide)
      have e2 := grid257_byte q 0 hq (by decide)
      exact Option.some.inj (e1.symm.trans ((congrArg some this).trans e2))
    have g : BitVec.ofNat 8 (p / 256) = BitVec.ofNat 8 (q / 256) := by
      have := congrArg Color.g h
      have e1 := grid257_byte p 1 hp (by decide)
      have e2 := grid257_byte q 1 hq (by decide)
      exact Option.some.inj (e1.symm.trans ((congrArg some this).trans e2))
    have r := congrArg BitVec.toNat r
    have g := congrArg BitVec.toNat g
    simp only [BitVec.toNat_ofNat] at r g
    omega
  have nodup : ((List.range 257).map grid257.gridPixel).Nodup :=
    List.Nodup.map_on inj List.nodup_range
  have hsize : grid257.gridSize = 257 := by decide
  rw [State.distinctColors, hsize, nodup.dedup, List.length_map, List.length_range]
  decide

theorem test_witness_PindexTraps :
    { gridAB 2 with srcLen := 7 }.srcLen < { gridAB 2 with srcLen := 7 }.regs.srcAddr.toNat +
      4 * { gridAB 2 with srcLen := 7 }.gridSize ∧
    (gridAB 1).dstLen < (gridAB 1).regs.dstAddr.toNat + (gridAB 1).gridSize := by decide

theorem test_witness_PindexDepth :
    (gridAB 2).regs.err = 0 ∧ ∃ t, exec .pindex (gridAB 2) = .next t ∧ t.regs.err = 0 := by
  have h := next_of_answers (o := exec .pindex (gridAB 2)) (p := fun t => decide (t.regs.err = 0)) (by decide)
  simp only [decide_eq_true_eq] at h
  exact ⟨by decide, h⟩

/-- The state the Host sets up to decode the indexed grid `A B`. -/
def decodeAB : State :=
  { gridAB 8 with regs := { RegFile.reset with
    width := 2, height := 1, depth := 1, palLen := 2, palAddr := 12, pixAddr := 8 } }

theorem test_witness_IndexedGrid :
    ∃ t, exec .pindex (gridAB 2) = .next t ∧ (gridAB 2).regs.err = 0 ∧ t.regs.err = 0 ∧ t.regs.depth.toNat ≤ 8 ∧
      decodeAB.regs.width = (gridAB 2).regs.width ∧ decodeAB.regs.height = (gridAB 2).regs.height ∧
      decodeAB.regs.depth = t.regs.depth ∧ decodeAB.regs.palLen = t.regs.palLen ∧
      (∀ i c, i < t.regs.palLen.toNat → t.pal.entry? i = some c →
        decodeAB.srcByte (decodeAB.regs.palAddr.toNat + 4 * i) = c.b ∧
        decodeAB.srcByte (decodeAB.regs.palAddr.toNat + 4 * i + 1) = c.g ∧
        decodeAB.srcByte (decodeAB.regs.palAddr.toNat + 4 * i + 2) = c.r) ∧
      (∀ x y, x < (gridAB 2).regs.width.toNat → y < (gridAB 2).regs.height.toNat →
        decodeAB.bmpIndexAt x y =
          (t.dst.read ((gridAB 2).regs.dstAddr.toNat + (y * (gridAB 2).regs.width.toNat + x))).toNat) ∧
      decodeAB.regs.palAddr.toNat + 4 * decodeAB.colorCount ≤ decodeAB.srcLen ∧ BmpChecks false decodeAB := by
  obtain ⟨t, ht, h⟩ := next_of_answers (o := exec .pindex (gridAB 2)) (p := fun t =>
    t.regs.err == 0 && t.regs.depth == 1 && t.regs.palLen == 2 &&
    t.pal == [(0, ⟨0xFF, 0, 0, 0xFF⟩), (1, ⟨0, 0xFF, 0, 0xFF⟩)] && t.dst == [(1, 1)]) (by decide)
  simp only [Bool.and_eq_true, beq_iff_eq] at h
  obtain ⟨⟨⟨⟨h1, h2⟩, h3⟩, h4⟩, h5⟩ := h
  refine ⟨t, ht, by decide, h1, by rw [h2]; decide, by decide, by decide, by rw [h2]; decide, by rw [h3]; decide,
    ?_, ?_, by decide, ⟨by decide, by decide, by decide, by decide⟩⟩
  · rw [h3, h4]
    intro i c hi hc
    match i, hi with
    | 0, _ => cases hc; decide
    | 1, _ => cases hc; decide
  · rw [h5]
    intro x y hx hy
    match x, y, hx, hy with
    | 0, 0, _, _ => decide
    | 1, 0, _, _ => decide

/-- HDR_BIP: asset P2 with a palette that fits; a header one byte short; a palette that does not fit (V-HB3). -/
theorem test_witness_HdrBip :
    ((block RegFile.reset assetP2 4).srcLen ≤ 4294967295 ∧ 0 + 0x10 ≤ (block RegFile.reset assetP2 4).srcLen ∧
      0 + 0x10 + 4 * ((block RegFile.reset assetP2 4).srcByte (0 + 0xC + 1) ++
        (block RegFile.reset assetP2 4).srcByte (0 + 0xC)).toNat ≤ (block RegFile.reset assetP2 4).srcLen) ∧
    (block RegFile.reset (assetP2.take 15) 4).srcLen < 0 + 0x10 ∧
    (0 + 0x10 ≤ (block RegFile.reset (assetP2.set 0xC 3) 4).srcLen ∧
      (block RegFile.reset (assetP2.set 0xC 3) 4).srcLen <
        0 + 0x10 + 4 * ((block RegFile.reset (assetP2.set 0xC 3) 4).srcByte (0 + 0xC + 1) ++
          (block RegFile.reset (assetP2.set 0xC 3) 4).srcByte (0 + 0xC)).toNat) := by decide

theorem test_witness_PloadBip :
    (block { RegFile.reset with palLen := 2 } [0, 0, 0, 0, 0, 0, 0, 0] 0).regs.palAddr.toNat + 4 * 2 ≤
      (block { RegFile.reset with palLen := 2 } [0, 0, 0, 0, 0, 0, 0, 0] 0).srcLen ∧
    (block { RegFile.reset with palLen := 2 } [0, 0, 0, 0, 0, 0, 0] 0).srcLen <
      (block { RegFile.reset with palLen := 2 } [0, 0, 0, 0, 0, 0, 0] 0).regs.palAddr.toNat + 4 * 2 := by decide

/-- DECODE_BIP of V-DI4, and of V-DI6 with the index 2 at x = 2 out of range. -/
theorem test_witness_DecodeBipWrites :
    BipChecks (bipAt 4 2 3 1 3) ∧
    (∀ x y, x < (bipAt 4 2 3 1 3).regs.width.toNat → y < (bipAt 4 2 3 1 3).regs.height.toNat →
      (bipAt 4 2 3 1 3).bipIndexAt x y < (bipAt 4 2 3 1 3).regs.palLen.toNat) := by
  refine ⟨⟨by decide, by decide, by decide, by decide⟩, fun x y hx hy => ?_⟩
  have h : ∀ x, x < (bipAt 4 2 3 1 3).regs.width.toNat → ∀ y, y < (bipAt 4 2 3 1 3).regs.height.toNat →
      (bipAt 4 2 3 1 3).bipIndexAt x y < (bipAt 4 2 3 1 3).regs.palLen.toNat := by decide
  exact h x hx y hy

theorem test_witness_DecodeBipIndexRange :
    BipChecks (bipAt 4 2 2 1 3) ∧ 2 < (bipAt 4 2 2 1 3).regs.width.toNat ∧
    0 < (bipAt 4 2 2 1 3).regs.height.toNat ∧
    (bipAt 4 2 2 1 3).regs.palLen.toNat ≤ (bipAt 4 2 2 1 3).bipIndexAt 2 0 :=
  ⟨⟨by decide, by decide, by decide, by decide⟩, by decide, by decide, by decide⟩

/-- DECODE_BIP's four checks: depth 3 (V-DI5); stride 1 where the row has 2 bytes; rows past SRC_LEN (V-DI9); a
DST one byte short. -/
theorem test_witness_DecodeBipTraps :
    ¬ validDepth (bipAt 3 2 3 1 3).regs.depth.toNat ∧
    (0 < (bipAt 4 1 3 1 3).regs.height.toNat ∧ bipRowLen (bipAt 4 1 3 1 3).regs.width.toNat
      (bipAt 4 1 3 1 3).regs.depth.toNat ≠ (bipAt 4 1 3 1 3).regs.stride.toNat) ∧
    ((0 < (bipAt 4 2 3 2 6).regs.height.toNat → bipRowLen (bipAt 4 2 3 2 6).regs.width.toNat
      (bipAt 4 2 3 2 6).regs.depth.toNat = (bipAt 4 2 3 2 6).regs.stride.toNat) ∧
      ¬ (bipAt 4 2 3 2 6).regs.pixAddr.toNat + (bipAt 4 2 3 2 6).regs.stride.toNat *
        (bipAt 4 2 3 2 6).regs.height.toNat ≤ (bipAt 4 2 3 2 6).srcLen) ∧
    ((bipAt 4 2 3 1 2).regs.pixAddr.toNat + (bipAt 4 2 3 1 2).regs.stride.toNat *
      (bipAt 4 2 3 1 2).regs.height.toNat ≤ (bipAt 4 2 3 1 2).srcLen ∧
      (bipAt 4 2 3 1 2).dstLen < (bipAt 4 2 3 1 2).regs.dstAddr.toNat +
        (bipAt 4 2 3 1 2).regs.width.toNat * (bipAt 4 2 3 1 2).regs.height.toNat) := by decide

/-- DECODE_BIP from a state whose ERR is not 4, with a stride that does not fit, and with one that does. -/
theorem test_witness_DecodeBipStride :
    (bipAt 4 1 3 1 3).regs.err ≠ 4 ∧ (∃ t, exec .decodeBip (bipAt 4 1 3 1 3) = .next t ∧ t.regs.err = 4) ∧
    (bipAt 4 2 3 1 3).regs.err ≠ 4 ∧ (∃ t, exec .decodeBip (bipAt 4 2 3 1 3) = .next t ∧ t.regs.err = 0) := by
  have h1 := next_of_answers (o := exec .decodeBip (bipAt 4 1 3 1 3)) (p := fun t => decide (t.regs.err = 4))
    (by decide)
  have h2 := next_of_answers (o := exec .decodeBip (bipAt 4 2 3 1 3)) (p := fun t => decide (t.regs.err = 0))
    (by decide)
  simp only [decide_eq_true_eq] at h1 h2
  exact ⟨by decide, h1, by decide, h2⟩

theorem test_witness_EveryCommand : (about fresh (.wr 0x00 32 0x0C)).fetch? = some (.wr 0x00 32 0x0C) := by decide

/-- The frames of all commands: a command that completes, one that faults precisely, and one that faults with
IndexRange in a decode. -/
theorem test_witness_Frames :
    (bmpAt 1 16).regs.err = 0 ∧ (∃ t, exec .pindex (gridAB 2) = .next t ∧ t.regs.err = 0) ∧
    (∃ t, exec .rdu16 (readAt 3) = .next t ∧ t.regs.err ≠ 0) ∧
    (∃ t, exec (.decodeBmp false) (bmpAt 1 16) = .next t ∧ t.regs.err ≠ 0) := by
  have h := next_of_answers (o := exec (.decodeBmp false) (bmpAt 1 16)) (p := fun t => decide (t.regs.err ≠ 0))
    (by decide)
  have h' := next_of_answers (o := exec .rdu16 (readAt 3)) (p := fun t => decide (t.regs.err ≠ 0)) (by decide)
  simp only [decide_eq_true_eq] at h h'
  exact ⟨by decide, test_witness_PindexDepth.2, h', h⟩

/-- MASK_ADDR plays no part in DECODE_BMP with M = 0 (R36). -/
theorem test_witness_UnreadRegisters :
    Reg.maskAddr ∉ readsOf (.decodeBmp false) ∧ Reg.maskAddr ∉ writesOf (.decodeBmp false) ∧
    ∃ t, exec (.decodeBmp false) (bmpAt 1 16) = .next t :=
  have ⟨t, h, _⟩ := next_of_answers (o := exec (.decodeBmp false) (bmpAt 1 16)) (p := fun _ => true) (by decide)
  ⟨by decide, by decide, t, h⟩

/-- DEPTH is written by PINDEX without being read (R36, R128). -/
theorem test_witness_WrittenUnreadRegister :
    Reg.depth ∉ readsOf .pindex ∧ Reg.depth ∈ writesOf .pindex ∧ ∃ t, exec .pindex (gridAB 2) = .next t :=
  have ⟨t, h, _⟩ := test_witness_PindexDepth.2
  ⟨by decide, by decide, t, h⟩

/-- Each of the three loads, completed on a Block without an error. -/
theorem test_witness_PaletteLoads :
    (∃ t, exec .ploadBmp (ploadBmpAt 1 1 [0, 0, 0, 0]) = .next t ∧ t.regs.err = 0) ∧
    (∃ t, exec .ploadBip (ploadBmpAt 0 1 [0, 0, 0, 0]) = .next t ∧ t.regs.err = 0) ∧
    (∃ t, exec .pindex (gridAB 2) = .next t ∧ t.regs.err = 0) := by
  have h1 := next_of_answers (o := exec .ploadBmp (ploadBmpAt 1 1 [0, 0, 0, 0]))
    (p := fun t => decide (t.regs.err = 0)) (by decide)
  have h2 := next_of_answers (o := exec .ploadBip (ploadBmpAt 0 1 [0, 0, 0, 0]))
    (p := fun t => decide (t.regs.err = 0)) (by decide)
  simp only [decide_eq_true_eq] at h1 h2
  exact ⟨h1, h2, test_witness_PindexDepth.2⟩

/-- A covered palette with PAL_LEN 2, and a command that is not HDR_BIP. -/
theorem test_witness_PaletteCovered :
    (Instr.lookup ≠ .hdrBip) ∧ (lookupAt 2 1 palDB4).PalCovered ∧ ∃ t, exec .lookup (lookupAt 2 1 palDB4) = .next t := by
  refine ⟨by decide, fun i h1 _ => ?_, ?_⟩
  · have h : ∀ i, i < (lookupAt 2 1 palDB4).regs.palLen.toNat →
        ((lookupAt 2 1 palDB4).pal.entry? i).isSome = true := by decide
    exact h i h1
  · have ⟨t, h, _⟩ := next_of_answers (o := exec .lookup (lookupAt 2 1 palDB4)) (p := fun _ => true) (by decide)
    exact ⟨t, h⟩

/-- A step of the program that is neither a write of PAL_LEN nor HDR_BIP, from a covered palette; and a reset. -/
theorem test_witness_PaletteCoveredStep :
    (about (lookupAt 2 1 palDB4) (.wr 0x00 32 0x08)).PalCovered ∧
    (∀ v, (about (lookupAt 2 1 palDB4) (.wr 0x00 32 0x08)).fetch? ≠ some (.wr 0x30 32 v)) ∧
    (about (lookupAt 2 1 palDB4) (.wr 0x00 32 0x08)).fetch? ≠ some (.wr 0x00 32 0x05) ∧
    (∃ t, step (about (lookupAt 2 1 palDB4) (.wr 0x00 32 0x08)) = .next t) ∧
    (∃ t, perform .hardReset (lookupAt 2 1 palDB4) = .next t) := by
  refine ⟨test_witness_PaletteCovered.2.1, fun v h => ?_, by decide, ?_, ⟨_, rfl⟩⟩
  · injection h with h
    injection h with h
    exact absurd h (by decide)
  · have ⟨t, h, _⟩ := next_of_answers (o := step (about (lookupAt 2 1 palDB4) (.wr 0x00 32 0x08)))
      (p := fun _ => true) (by decide)
    exact ⟨t, h⟩

/-- HDR_BIP from a covered palette (PAL_LEN is 0) to PAL_LEN 2 with no entry written (log 8). -/
theorem test_witness_HdrBipUncovers :
    (block RegFile.reset assetP2 4).PalCovered ∧
    ∃ t, exec .hdrBip (block RegFile.reset assetP2 4) = .next t ∧ 0 < t.regs.palLen.toNat ∧ t.pal.entry? 0 = none := by
  refine ⟨fun i h _ => absurd h (Nat.not_lt_zero i), ?_⟩
  have h := next_of_answers (o := exec .hdrBip (block RegFile.reset assetP2 4))
    (p := fun t => decide (0 < t.regs.palLen.toNat ∧ t.pal.entry? 0 = none)) (by decide)
  simp only [decide_eq_true_eq] at h
  exact h

theorem fresh_inv : fresh.Inv :=
  ⟨by decide, by decide, by decide, by decide, by decide, by decide, by decide⟩

theorem test_witness_Invariant :
    (about fresh (.write .cmd 0x0B)).Inv ∧ ∃ t, step (about fresh (.write .cmd 0x0B)) = .next t :=
  have ⟨t, h, _⟩ := next_of_answers (o := step (about fresh (.write .cmd 0x0B))) (p := fun _ => true) (by decide)
  ⟨⟨by decide, by decide, by decide, by decide, by decide, by decide, by decide⟩, t, h⟩

/-- Canonical spaces within their lengths, for the power-on state. -/
theorem test_witness_PowerOn :
    Memory.wf [(0, 1)] ∧ Memory.below [(0, 1)] 1 ∧ (1 : Nat) ≤ 4294967295 := by decide

end Sys2Proof.Tests
end

section
/-! SUPPORT. What a command reads of DST: nothing. Every command is a function of the state without DST, and what it
does to DST is at most one block write whose place and bytes that function fixes (`00_scope.md` R12, `10_state.md`
R45). -/

namespace Sys2Proof.Machine

variable (s : State) (d : Memory)

/-! ## A state with another DST -/

/-- The state with `d` for DST. -/
def State.withDst : State := { s with dst := d }

/-! ## Outcomes that do not depend on what DST held -/

/-- A run as a function of what DST holds before it: it answers one state, the same for every DST, but for DST
itself, which it leaves alone or to which it writes one block, the same for every DST. -/
def DstBlind (run : Memory → Host.Outcome State Fault Refusal) : Prop :=
  ∃ t : State, (∀ d, run d = .next (t.withDst d)) ∨
    ∃ a bs, ∀ d, run d = .next (t.withDst (d.writeBlock a bs))

theorem dstBlind_keep (t : State) : DstBlind fun d => .next (t.withDst d) := ⟨t, .inl fun _ => rfl⟩

theorem dstBlind_write (t : State) (a : Nat) (bs : List Byte) :
    DstBlind fun d => .next (t.withDst (d.writeBlock a bs)) := ⟨t, .inr ⟨a, bs, fun _ => rfl⟩⟩

/-- The free bytes that R206 leaves in DST come from the draw counter and the address, not from DST. -/
theorem dstBlind_scramble (a n : Nat) (w : Word) :
    DstBlind fun d => .next (((s.withDst d).scrambleDst a n).raise .indexRange w) :=
  dstBlind_write (s.drawn.raise .indexRange w) a ((List.range n).map fun j => Config.freeDstByte s.draws (a + j))

/-- A branch on anything but DST takes one side for every DST. -/
theorem dstBlind_ite {p : Memory → Prop} {_ : ∀ d, Decidable (p d)}
    {f g : Memory → Host.Outcome State Fault Refusal} (hp : ∀ d d', p d ↔ p d') (hf : DstBlind f) (hg : DstBlind g) :
    DstBlind fun d => if p d then f d else g d := by
  by_cases h : p []
  · simpa only [(hp _ []).mpr h, if_true] using hf
  · simpa only [mt (hp _ []).mp h, if_false] using hg

variable {s}

/-- A check on anything but DST keeps a command blind to DST. -/
theorem dstBlind_require {p : Memory → Prop} {_ : ∀ d, Decidable (p d)} {e : ErrorCode} {i : Instr}
    {rest : Memory → Host.Outcome State Fault Refusal} (hp : ∀ d d', p d ↔ p d') (h : DstBlind rest) :
    DstBlind fun d => (s.withDst d).require (p d) e i (rest d) :=
  dstBlind_ite hp h (dstBlind_keep (s.raise e (encode i)))

theorem DstBlind.answers {run : Memory → Host.Outcome State Fault Refusal} (h : DstBlind run) (d : Memory) :
    ∃ t, run d = .next t := by
  obtain ⟨t, h | ⟨a, bs, h⟩⟩ := h <;> exact ⟨_, h d⟩

/-! ## The commands

Each proof names the state the command answers and the block it writes, if any, from the state without its DST; the
command's checks read no DST, so they are the same proposition for every DST. -/

variable (s)

theorem execExtract_dstBlind (k : Nat) : DstBlind fun d => execExtract k (s.withDst d) :=
  dstBlind_require (fun _ _ => .rfl) <| dstBlind_require (fun _ _ => .rfl) <|
    dstBlind_keep (s.setResult (field s.argByte s.regs.depth.toNat k))

theorem execUnpack_dstBlind : DstBlind fun d => execUnpack (s.withDst d) :=
  dstBlind_require (fun _ _ => .rfl) <| dstBlind_require (fun _ _ => .rfl) <| dstBlind_require (fun _ _ => .rfl) <|
    dstBlind_write (unpackDone s) s.regs.dstAddr.toNat
      ((unpack (s.srcBytes s.regs.srcAddr.toNat s.regs.srcCnt.toNat) s.regs.depth.toNat).map indexByte)

theorem execRdu16_dstBlind : DstBlind fun d => execRdu16 (s.withDst d) :=
  dstBlind_require (fun _ _ => .rfl) <| dstBlind_keep (s.setResult (s.memRead s.regs.srcAddr.toNat 2))

theorem execRdu32_dstBlind : DstBlind fun d => execRdu32 (s.withDst d) :=
  dstBlind_require (fun _ _ => .rfl) <| dstBlind_keep (s.setResult (s.memRead s.regs.srcAddr.toNat 4))

theorem execHdrBip_dstBlind : DstBlind fun d => execHdrBip (s.withDst d) :=
  dstBlind_require (fun _ _ => .rfl) <| dstBlind_require (fun _ _ => .rfl) <| dstBlind_keep (hdrBipDone s)

theorem execPloadBmp_dstBlind : DstBlind fun d => execPloadBmp (s.withDst d) :=
  dstBlind_require (fun _ _ => .rfl) <| dstBlind_require (fun _ _ => .rfl) <| dstBlind_keep (ploadBmpDone s)

theorem execPloadBip_dstBlind : DstBlind fun d => execPloadBip (s.withDst d) :=
  dstBlind_require (fun _ _ => .rfl) <| dstBlind_keep (ploadBipDone s)

theorem execLookup_dstBlind : DstBlind fun d => execLookup (s.withDst d) :=
  dstBlind_require (fun _ _ => .rfl) <| dstBlind_keep (s.setResult (s.palRead s.argByte.toNat).packed).drawn

theorem execDecodeBmp_dstBlind (m : Bool) : DstBlind fun d => execDecodeBmp m (s.withDst d) :=
  dstBlind_require (fun _ _ => .rfl) <| dstBlind_require (fun _ _ => .rfl) <| dstBlind_require (fun _ _ => .rfl) <|
    dstBlind_require (fun _ _ => .rfl) <| dstBlind_ite (fun _ _ => .rfl)
      (dstBlind_write (decodeBmpDone m s) s.regs.dstAddr.toNat (s.bmpOutput m))
      (dstBlind_scramble s s.regs.dstAddr.toNat (4 * s.regs.width.toNat * s.regs.height.toNat) _)

theorem execDecodeBip_dstBlind : DstBlind fun d => execDecodeBip (s.withDst d) :=
  dstBlind_require (fun _ _ => .rfl) <| dstBlind_require (fun _ _ => .rfl) <| dstBlind_require (fun _ _ => .rfl) <|
    dstBlind_require (fun _ _ => .rfl) <| dstBlind_ite (fun _ _ => .rfl)
      (dstBlind_write (decodeBipDone s) s.regs.dstAddr.toNat (s.bipIndices.map fun i => bipByte (s.palRead i)))
      (dstBlind_scramble s s.regs.dstAddr.toNat (s.regs.width.toNat * s.regs.height.toNat) _)

theorem execPindex_dstBlind : DstBlind fun d => execPindex (s.withDst d) :=
  dstBlind_require (fun _ _ => .rfl) <| dstBlind_require (fun _ _ => .rfl) <| dstBlind_ite (fun _ _ => .rfl)
    (dstBlind_write (pindexDone s) s.regs.dstAddr.toNat ((scanPalette [] s.pindexPixels).2.map indexByte))
    (dstBlind_keep (pindexTrueColor s))

/-- No command reads DST. -/
theorem exec_dstBlind (i : Instr) : DstBlind fun d => exec i (s.withDst d) := by
  cases i with
  | extract k => exact execExtract_dstBlind s k
  | unpack => exact execUnpack_dstBlind s
  | rdu16 => exact execRdu16_dstBlind s
  | rdu32 => exact execRdu32_dstBlind s
  | hdrBip => exact execHdrBip_dstBlind s
  | ploadBmp => exact execPloadBmp_dstBlind s
  | ploadBip => exact execPloadBip_dstBlind s
  | lookup => exact execLookup_dstBlind s
  | decodeBmp m => exact execDecodeBmp_dstBlind s m
  | decodeBip => exact execDecodeBip_dstBlind s
  | pindex => exact execPindex_dstBlind s

/-! ## One block written to two spaces -/

/-- After one block is written to two spaces, each address reads the same in both, or as before in both. -/
theorem Memory.read_writeBlock_two (m n : Memory) (a : Nat) (bs : List Byte) (x : Nat) :
    (n.writeBlock a bs).read x = (m.writeBlock a bs).read x ∨
      ((m.writeBlock a bs).read x = m.read x ∧ (n.writeBlock a bs).read x = n.read x) := by
  by_cases hx : x < a ∨ a + bs.length ≤ x
  · exact .inr ⟨m.read_writeBlock_outside a bs x hx, n.read_writeBlock_outside a bs x hx⟩
  · obtain ⟨j, rfl⟩ : ∃ j, x = a + j := ⟨x - a, by omega⟩
    have hj : j < bs.length := by omega
    exact .inl ((n.read_writeBlock_inside a bs j hj).trans (m.read_writeBlock_inside a bs j hj).symm)

/-- Settles O49: a command blind to DST leaves it alone in both runs or writes one block to it in both. -/
theorem noCommandReadsDst : Obligations.NoCommandReadsDst := by
  intro i s t d h
  obtain ⟨u, hu | ⟨a, bs, hu⟩⟩ := exec_dstBlind s i
  · obtain rfl : t = u.withDst s.dst := next_inj.mp ((hu s.dst).symm.trans h)
    exact ⟨d, hu d, fun _ => .inr ⟨rfl, rfl⟩⟩
  · obtain rfl : t = u.withDst (s.dst.writeBlock a bs) := next_inj.mp ((hu s.dst).symm.trans h)
    exact ⟨d.writeBlock a bs, hu d, s.dst.read_writeBlock_two d a bs⟩

/-! ## Every command answers -/

/-- A command answers a next state: its checks, its row loops and its faults all end in one. -/
theorem exec_answers (i : Instr) : ∃ t, exec i s = .next t := (exec_dstBlind s i).answers s.dst

/-- A CMD write answers a next state, halted or not, whatever the word is. -/
theorem issueCommand_answers (w : Word) : ∃ t, issueCommand w s = .next t := by
  unfold issueCommand
  split_ifs
  · exact ⟨s, rfl⟩
  · split
    · exact exec_answers s _
    · exact ⟨_, rfl⟩

/-- Settles O47, from the answer of every command and of every CMD write. -/
theorem everyCommandAnswersInOneStep : Obligations.EveryCommandAnswersInOneStep := by
  refine ⟨fun i s => exec_answers s i, fun s w hf => ?_⟩
  obtain ⟨t, ht⟩ := issueCommand_answers s w
  have hp : perform (.wr 0x00 32 w) s = .next t := (perform_write .cmd w s).trans ht
  exact ⟨{ t with pos := t.pos + 1 }, by rw [step_fetched hf, hp, advance]⟩

/-- Settles O6: the step is the command's outcome with the program position advanced. -/
theorem stepRunsTheDecodedCommand : Obligations.StepRunsTheDecodedCommand := by
  intro s t w i hf hh hd ht
  rw [step_command hf hh hd, ht, advance]

end Sys2Proof.Machine
end

section
/-! SUPPORT. What a command leaves unchanged, and that every operation keeps the invariant (`20_memory.md` R60, R61,
R66; `10_state.md` R41, R44). -/

namespace Sys2Proof.Machine

variable {s t : State} {i : Instr}

/-! ## The frame of a command -/

/-- SRC, the lengths and the Host's part of the state stay. -/
theorem exec_frame (h : exec i s = .next t) :
    t = { s with regs := t.regs, pal := t.pal, dst := t.dst, draws := t.draws } := by
  rcases exec_cases h with ⟨e, rfl⟩ | ⟨ht, -⟩ | ⟨-, -, rfl⟩
  · rfl
  · exact ht
  · rfl

/-- DST outside the region of R85 stays, in a fault too. -/
theorem exec_dst_outside (h : exec i s = .next t) (x : Nat)
    (hx : x < (dstRegion i s).1 ∨ (dstRegion i s).1 + (dstRegion i s).2 ≤ x) :
    t.dst.read x = s.dst.read x := by
  rcases exec_cases h with ⟨e, rfl⟩ | ⟨-, -, -, -, hd | ⟨bs, hd, hl, -⟩⟩ | ⟨-, -, rfl⟩
  · rfl
  · rw [hd]
  · rw [hd]
    exact s.dst.read_writeBlock_outside _ bs x (by rwa [hl])
  · exact s.dst.read_writeBlock_outside _ _ x (by simpa using hx)

/-- Settles O48, from the frame of every command and its DST region. -/
theorem commandsLeaveSrcAndTheHostAlone : Obligations.CommandsLeaveSrcAndTheHostAlone := by
  intro i s t h
  refine ⟨?_, ?_, ?_, ?_, ?_, ?_, exec_dst_outside h⟩ <;> rw [exec_frame h]

/-! ## The invariant after each update of the state -/

theorem State.Inv.raise (hs : s.Inv) {e : ErrorCode} (w : Word)
    (he : e.code = 0 ∨ 3 ≤ e.code.toNat ∧ e.code.toNat ≤ 8) : (s.raise e w).Inv :=
  { hs with errCode := he, errInfoClear := fun h => absurd h e.code_ne_zero }

theorem State.Inv.writeDst (hs : s.Inv) {a : Nat} {bs : List Byte} (hb : a + bs.length ≤ s.dstLen) :
    (s.writeDst a bs).Inv :=
  { hs with dstWf := ⟨s.dst.writeBlock_wf a bs hs.dstWf.1, s.dst.writeBlock_below a bs _ hs.dstWf.2 hb⟩ }

theorem State.Inv.writeSrc (hs : s.Inv) {a : Nat} {bs : List Byte} (hb : s.srcOK a bs.length) :
    State.Inv { s with src := s.src.writeBlock a bs } :=
  { hs with srcWf := ⟨s.src.writeBlock_wf a bs hs.srcWf.1, s.src.writeBlock_below a bs _ hs.srcWf.2 hb⟩ }

theorem State.Inv.scrambleDst (hs : s.Inv) {a n : Nat} (hb : a + n ≤ s.dstLen) : (s.scrambleDst a n).Inv :=
  { hs.writeDst (bs := (List.range n).map fun j => Config.freeDstByte s.draws (a + j)) (by simpa using hb) with }

theorem State.Inv.blockReset (hs : s.Inv) : s.blockReset.Inv :=
  { hs with
    palWf := ⟨List.Pairwise.nil, by simp⟩
    errCode := .inl rfl
    errInfoClear := fun _ => rfl }

/-- Registers, palette and DST may change together as a completed command changes them. -/
theorem State.Inv.update (hs : s.Inv)
    (ht : t = { s with regs := t.regs, pal := t.pal, dst := t.dst, draws := t.draws })
    (he : t.regs.err = s.regs.err) (hi : t.regs.errInfo = s.regs.errInfo) (hp : t.pal.wf)
    (hd : t.dst.wf ∧ t.dst.below s.dstLen) : t.Inv := by
  rw [ht]
  exact { hs with
    dstWf := hd
    palWf := hp
    errCode := he ▸ hs.errCode
    errInfoClear := fun h => hi.trans (hs.errInfoClear (he.symm.trans h)) }

theorem State.Inv.advance (hs : s.Inv) (hp : s.pos < s.program.length) : State.Inv { s with pos := s.pos + 1 } :=
  { hs with posBound := hp }

/-! ## The invariant after each operation of the Host -/

theorem exec_errCode (hs : s.Inv) (h : exec i s = .next t) :
    t.regs.err = 0 ∨ 3 ≤ t.regs.err.toNat ∧ t.regs.err.toNat ≤ 8 := by
  rcases exec_errLegal i s t h with he | he
  · rw [he]; exact hs.errCode
  · exact .inr he

/-- A command keeps the invariant, completed or faulted. -/
theorem exec_inv (hs : s.Inv) (h : exec i s = .next t) : t.Inv := by
  have hc := exec_errCode hs h
  rcases exec_cases h with ⟨e, rfl⟩ | ⟨ht, he, hi, hp, hd⟩ | ⟨-, hb, rfl⟩
  · exact hs.raise _ hc
  · refine hs.update ht he hi ?_ ?_
    · rcases hp with hp | ⟨cs, hp⟩ <;> rw [hp]
      · exact hs.palWf
      · exact s.pal.load_wf cs hs.palWf
    · rcases hd with hd | ⟨bs, hd, -, hb⟩ <;> rw [hd]
      · exact hs.dstWf
      · exact (hs.writeDst hb).dstWf
  · exact (hs.scrambleDst hb).raise _ hc

theorem exec_pos_lt (h : exec i s = .next t) (hp : s.pos < s.program.length) : t.pos < t.program.length := by
  rw [exec_frame h]
  exact hp

/-- A write to CTRL is a soft reset or nothing (R25). -/
theorem writeCtrl_eq_or_eq (w : Word) (s : State) : writeCtrl w s = s.blockReset ∨ writeCtrl w s = s :=
  ite_eq_or_eq _ _ _

theorem put_inv (hs : s.Inv) (r : Reg) (v : Word) : State.Inv { s with regs := s.regs.put v r } :=
  hs.update rfl (s.regs.put_err v r) (s.regs.put_errInfo v r) hs.palWf hs.dstWf

/-- Settles O57: each operation keeps the invariant and its position is short of the program's end. -/
theorem everyStepKeepsTheInvariant : Obligations.EveryStepKeepsTheInvariant := by
  intro s t hs h
  rcases step_cases h with ⟨-, rfl⟩ | ⟨u, rfl, hp, hu⟩
  · exact hs
  · suffices hu : u.Inv ∧ u.pos < u.program.length from hu.1.advance hu.2
    rcases hu with ⟨w, -, -, rfl⟩ | ⟨w, i, -, -, -, hx⟩ | ⟨w, e, -, -, -, rfl⟩ | ⟨w, -, rfl⟩ |
      ⟨r, v, -, -, -, rfl⟩ | ⟨r, -, rfl⟩ | ⟨a, b, bs, -, hb, rfl⟩ | ⟨-, rfl⟩
    · exact ⟨hs, hp⟩
    · exact ⟨exec_inv hs hx, exec_pos_lt hx hp⟩
    · exact ⟨hs.raise w (.inr (by decide)), hp⟩
    · rcases writeCtrl_eq_or_eq w s with hw | hw <;> rw [hw]
      · exact ⟨hs.blockReset, hp⟩
      · exact ⟨hs, hp⟩
    · exact ⟨put_inv hs r v, hp⟩
    · exact ⟨{ hs with }, hp⟩
    · exact ⟨hs.writeSrc hb, hp⟩
    · exact ⟨hs.blockReset, hp⟩

/-! ## The state after power-on -/

theorem powerOn_inv {src dst : Memory} {sl dl : Nat} (prog : List HostOp) (hsrc : src.wf ∧ src.below sl)
    (hdst : dst.wf ∧ dst.below dl) (hsl : sl ≤ Config.maxLen) (hdl : dl ≤ Config.maxLen) :
    (State.powerOn src sl dst dl prog).Inv where
  srcWf := hsrc
  dstWf := hdst
  lengths := ⟨hsl, hdl⟩
  palWf := ⟨List.Pairwise.nil, by simp [State.powerOn]⟩
  errCode := .inl rfl
  errInfoClear _ := rfl
  posBound := Nat.zero_le _

/-- Settles O56: registers and palette are clear, and the platform's spaces are as given; `State.reset` has the
empty spaces of the largest size. -/
theorem powerOnMeetsTheInvariant : Obligations.PowerOnMeetsTheInvariant := by
  have hnil : Memory.wf [] ∧ Memory.below [] Config.maxLen := ⟨Memory.wf_nil, by simp⟩
  exact ⟨fun src dst sl dl prog hsw hsb hdw hdb hsl hdl => powerOn_inv prog ⟨hsw, hsb⟩ ⟨hdw, hdb⟩ hsl hdl,
    powerOn_inv [] hnil hnil le_rfl le_rfl⟩

end Sys2Proof.Machine
end

section
/-! SUPPORT. Which registers a command reads and writes (`30_encoding.md` R85): it overwrites either the registers of
its column "writes" or, when it faults, STATUS and ERRINFO, with values that only its column "reads" fixes. -/

namespace Sys2Proof.Machine

/-! ## Register files that take some registers from another -/

/-- The register file with the registers of `W` as in `g`. -/
def RegFile.overwrite (f : RegFile) (W : List Reg) (g : RegFile) : RegFile where
  err := if .status ∈ W then g.err else f.err
  errInfo := if .errInfo ∈ W then g.errInfo else f.errInfo
  srcAddr := if .srcAddr ∈ W then g.srcAddr else f.srcAddr
  srcCnt := if .srcCnt ∈ W then g.srcCnt else f.srcCnt
  dstAddr := if .dstAddr ∈ W then g.dstAddr else f.dstAddr
  depth := if .depth ∈ W then g.depth else f.depth
  width := if .width ∈ W then g.width else f.width
  height := if .height ∈ W then g.height else f.height
  stride := if .stride ∈ W then g.stride else f.stride
  palAddr := if .palAddr ∈ W then g.palAddr else f.palAddr
  palLen := if .palLen ∈ W then g.palLen else f.palLen
  pixAddr := if .pixAddr ∈ W then g.pixAddr else f.pixAddr
  maskAddr := if .maskAddr ∈ W then g.maskAddr else f.maskAddr
  arg := if .arg ∈ W then g.arg else f.arg
  result := if .result ∈ W then g.result else f.result
  transp := if .transp ∈ W then g.transp else f.transp

theorem RegFile.get_overwrite (f : RegFile) (W : List Reg) (g : RegFile) (r : Reg) :
    (f.overwrite W g).get r = if r ∈ W then g.get r else f.get r := by
  cases r with
  | cmd | ctrl => exact (ite_self _).symm
  | status => exact apply_ite (BitVec.zeroExtend 32) (.status ∈ W) g.err f.err
  | transp => exact apply_ite (BitVec.zeroExtend 32) (.transp ∈ W) g.transp f.transp
  | _ => rfl

theorem RegFile.overwrite_eq_self {f g : RegFile} {W : List Reg} (h : ∀ r ∈ W, f.get r = g.get r) :
    f.overwrite W g = f := by
  refine RegFile.ext_get _ _ fun r => ?_
  rw [RegFile.get_overwrite]
  split_ifs with hr
  · exact (h r hr).symm
  · rfl

/-- Overwriting after a register-port write is a register-port write after overwriting, of the value the register
then has. -/
theorem RegFile.overwrite_put (f : RegFile) (v : Word) (r : Reg) (W : List Reg) (g : RegFile) :
    (f.put v r).overwrite W g = (f.overwrite W g).put (if r ∈ W then g.get r else v) r := by
  by_cases hw : r.writable = true
  · refine RegFile.ext_get _ _ fun r' => ?_
    rw [RegFile.get_overwrite]
    by_cases hr : r' = r
    · rw [hr, RegFile.get_put_self _ _ _ hw, RegFile.get_put_self _ _ _ hw]
    · rw [RegFile.get_put_ne _ _ _ _ hr, RegFile.get_put_ne _ _ _ _ hr, RegFile.get_overwrite]
  · rw [Bool.not_eq_true] at hw
    rw [RegFile.put_not_writable _ _ _ hw, RegFile.put_not_writable _ _ _ hw]

/-! ## Two runs from states that agree on the registers read -/

/-- Answering `t` from `s`, command `i` overwrote the registers `W`: those of R85 where it completed, STATUS and ERRINFO
where it faulted. -/
structure Overwrites (i : Instr) (s t : State) (W : List Reg) : Prop where
  columns : W = writesOf i ∨ W = [.status, .errInfo] ∧ t.regs.err ≠ 0
  kept : s.regs.overwrite W t.regs = t.regs

/-- The outcomes of command `i` from `s` and from `s` with the registers `f`: they overwrite the same registers with the
same values and agree in everything else. -/
def SameEffect (i : Instr) (s : State) (f : RegFile) (o o' : Host.Outcome State Fault Refusal) : Prop :=
  ∃ t W, Overwrites i s t W ∧ o = .next t ∧ o' = .next { t with regs := f.overwrite W t.regs }

variable {s t : State} {i : Instr} {f : RegFile}

/-- A completed command overwrites the registers of R85. -/
theorem sameEffect_done (t : State) (h : s.regs.overwrite (writesOf i) t.regs = t.regs) :
    SameEffect i s f (.next t) (.next { t with regs := f.overwrite (writesOf i) t.regs }) :=
  ⟨t, _, ⟨.inl rfl, h⟩, rfl, rfl⟩

/-- A fault overwrites STATUS and ERRINFO, whatever it does to DST. -/
theorem sameEffect_raise (u : State) (e : ErrorCode) (w : Word) (h : u.regs = s.regs) :
    SameEffect i s f (.next (u.raise e w)) (.next (State.raise { u with regs := f } e w)) :=
  ⟨u.raise e w, [.status, .errInfo], ⟨.inr ⟨rfl, e.code_ne_zero⟩, by rw [← h]; rfl⟩, rfl, rfl⟩

theorem sameEffect_ite {p : Prop} [Decidable p] {a b a' b' : Host.Outcome State Fault Refusal}
    (ha : SameEffect i s f a a') (hb : SameEffect i s f b b') :
    SameEffect i s f (if p then a else b) (if p then a' else b') := by
  split_ifs
  · exact ha
  · exact hb

/-- A check on nothing but the registers read goes the same way in both runs. -/
theorem sameEffect_require {p : Prop} [Decidable p] {e : ErrorCode} {rest rest' : Host.Outcome State Fault Refusal}
    (h : SameEffect i s f rest rest') :
    SameEffect i s f (s.require p e i rest) (State.require { s with regs := f } p e i rest') :=
  sameEffect_ite h (sameEffect_raise s e (encode i) rfl)

/-! ## The commands

The second run starts from any registers `f` that take the column "reads" from the first, so every check and every
value written is the same term in both. -/

variable (s f)

/-- The state with registers that agree with its own on those that a command reads. -/
def State.withUnread (i : Instr) : State := { s with regs := f.overwrite (readsOf i) s.regs }

/-- What command `i` does from `s` depends on the registers of its column "reads" alone. -/
def DependsOnReads (i : Instr) : Prop :=
  SameEffect i s (f.overwrite (readsOf i) s.regs) (exec i s) (exec i (s.withUnread f i))

theorem execExtract_reads (k : Nat) : DependsOnReads s f (.extract k) :=
  sameEffect_require <| sameEffect_require <|
    sameEffect_done (s.setResult (field s.argByte s.regs.depth.toNat k)) rfl

theorem execUnpack_reads : DependsOnReads s f .unpack :=
  sameEffect_require <| sameEffect_require <| sameEffect_require <| sameEffect_done (unpackDone s) rfl

theorem execRdu16_reads : DependsOnReads s f .rdu16 :=
  sameEffect_require <| sameEffect_done (s.setResult (s.memRead s.regs.srcAddr.toNat 2)) rfl

theorem execRdu32_reads : DependsOnReads s f .rdu32 :=
  sameEffect_require <| sameEffect_done (s.setResult (s.memRead s.regs.srcAddr.toNat 4)) rfl

theorem execHdrBip_reads : DependsOnReads s f .hdrBip :=
  sameEffect_require <| sameEffect_require <| sameEffect_done (hdrBipDone s) rfl

theorem execPloadBmp_reads : DependsOnReads s f .ploadBmp :=
  sameEffect_require <| sameEffect_require <| sameEffect_done (ploadBmpDone s) rfl

theorem execPloadBip_reads : DependsOnReads s f .ploadBip :=
  sameEffect_require <| sameEffect_done (ploadBipDone s) rfl

theorem execLookup_reads : DependsOnReads s f .lookup :=
  sameEffect_require <| sameEffect_done (s.setResult (s.palRead s.argByte.toNat).packed).drawn rfl

/-- MASK_ADDR is read only with `M = 1`, so the two columns "reads" are two cases. -/
theorem execDecodeBmp_reads (m : Bool) : DependsOnReads s f (.decodeBmp m) := by
  cases m with
  | false | true =>
    exact sameEffect_require <| sameEffect_require <| sameEffect_require <| sameEffect_require <|
      sameEffect_ite (sameEffect_done (decodeBmpDone _ s) rfl)
        (sameEffect_raise (s.scrambleDst s.regs.dstAddr.toNat (4 * s.regs.width.toNat * s.regs.height.toNat)) _ _ rfl)

theorem execDecodeBip_reads : DependsOnReads s f .decodeBip :=
  sameEffect_require <| sameEffect_require <| sameEffect_require <| sameEffect_require <|
    sameEffect_ite (sameEffect_done (decodeBipDone s) rfl)
      (sameEffect_raise (s.scrambleDst s.regs.dstAddr.toNat (s.regs.width.toNat * s.regs.height.toNat)) _ _ rfl)

theorem execPindex_reads : DependsOnReads s f .pindex :=
  sameEffect_require <| sameEffect_require <|
    sameEffect_ite (sameEffect_done (pindexDone s) rfl) (sameEffect_done (pindexTrueColor s) rfl)

theorem exec_reads (i : Instr) : DependsOnReads s f i := by
  cases i with
  | extract k => exact execExtract_reads s f k
  | unpack => exact execUnpack_reads s f
  | rdu16 => exact execRdu16_reads s f
  | rdu32 => exact execRdu32_reads s f
  | hdrBip => exact execHdrBip_reads s f
  | ploadBmp => exact execPloadBmp_reads s f
  | ploadBip => exact execPloadBip_reads s f
  | lookup => exact execLookup_reads s f
  | decodeBmp m => exact execDecodeBmp_reads s f m
  | decodeBip => exact execDecodeBip_reads s f
  | pindex => exact execPindex_reads s f

variable {s f}

/-- What a command answers, from its registers and from any others that agree on the column "reads". -/
theorem exec_overwrites (h : exec i s = .next t) (hf : ∀ r ∈ readsOf i, f.get r = s.regs.get r) :
    ∃ W, Overwrites i s t W ∧ exec i { s with regs := f } = .next { t with regs := f.overwrite W t.regs } := by
  obtain ⟨u, W, hW, hu, hu'⟩ := exec_reads s f i
  obtain rfl : t = u := next_inj.mp (hu.symm.trans h)
  rw [State.withUnread, RegFile.overwrite_eq_self hf] at hu'
  exact ⟨W, hW, hu'⟩

/-! ## What an overwritten register is -/

section
variable {W : List Reg} {r : Reg}

/-- A register that is not overwritten reads as before. -/
theorem Overwrites.get_eq (h : Overwrites i s t W) (hr : r ∉ W) : t.regs.get r = s.regs.get r := by
  rw [← h.kept, RegFile.get_overwrite, if_neg hr]

/-- A register outside the column "writes" is overwritten by a fault alone, so it is one that the Host cannot write. -/
theorem Overwrites.readOnly (h : Overwrites i s t W) (hi : r ∉ writesOf i) (hr : r ∈ W) : r.writable = false := by
  rcases h.columns with rfl | ⟨rfl, -⟩
  · exact absurd hr hi
  · clear hi; revert r; decide

theorem Overwrites.err_eq (h : Overwrites i s t W) (hr : .status ∉ W) : t.regs.err = s.regs.err := by
  rw [← h.kept]
  exact if_neg hr

theorem Overwrites.transp_eq (h : Overwrites i s t W) (hr : .transp ∉ W) : t.regs.transp = s.regs.transp := by
  rw [← h.kept]
  exact if_neg hr

theorem status_not_mem_writesOf (i : Instr) : .status ∉ writesOf i ∧ .errInfo ∉ writesOf i := by
  cases i <;> simp [writesOf]

/-- ERR and ERRINFO are overwritten together, by a fault (R204). -/
theorem Overwrites.status_mem_iff (h : Overwrites i s t W) : .status ∈ W ↔ .errInfo ∈ W := by
  rcases h.columns with rfl | ⟨rfl, -⟩
  · exact iff_of_false (status_not_mem_writesOf i).1 (status_not_mem_writesOf i).2
  · decide

end

/-! ## A register that a command does not read -/

/-- A register-port write before a command, to a register that it does not read, acts like one after it: of the value
that the command gives the register where it overwrites it, and of the same value where it does not. -/
theorem exec_put_unread {r : Reg} (v : Word) (hr : r ∉ readsOf i) (h : exec i s = .next t) :
    ∃ W, Overwrites i s t W ∧ exec i { s with regs := s.regs.put v r } =
      .next { t with regs := t.regs.put (if r ∈ W then t.regs.get r else v) r } := by
  obtain ⟨W, hW, hx⟩ := exec_overwrites h (f := s.regs.put v r)
    fun r' hr' => RegFile.get_put_ne _ _ _ _ fun he => hr (he ▸ hr')
  rw [RegFile.overwrite_put, hW.kept] at hx
  exact ⟨W, hW, hx⟩

/-- A register outside both columns: the command runs the same before the write and after it. -/
theorem exec_put_comm {r : Reg} (v : Word) (hr : r ∉ readsOf i) (hw : r ∉ writesOf i) (h : exec i s = .next t) :
    exec i { s with regs := s.regs.put v r } = .next { t with regs := t.regs.put v r } := by
  obtain ⟨W, hW, hx⟩ := exec_put_unread v hr h
  by_cases hm : r ∈ W
  · have hro := hW.readOnly hw hm
    rw [RegFile.put_not_writable _ _ _ hro] at hx ⊢
    rwa [RegFile.put_not_writable _ _ _ hro]
  · rwa [if_neg hm] at hx

/-! ## The registers that no command reads -/

/-- The register file with other values of ERR, ERRINFO, RESULT and TRANSP. -/
def RegFile.withOutputs (f : RegFile) (e : BitVec 4) (x v : Word) (p : BitVec 1) : RegFile :=
  { f with err := e, errInfo := x, result := v, transp := p }

theorem RegFile.get_withOutputs (f : RegFile) (e : BitVec 4) (x v : Word) (p : BitVec 1) (i : Instr) :
    ∀ r ∈ readsOf i, (f.withOutputs e x v p).get r = f.get r := by
  intro r hr
  cases r with
  | status | errInfo | result | transp => cases i with
    | decodeBmp m => cases m <;> simp [readsOf] at hr
    | _ => simp [readsOf] at hr
  | _ => rfl

theorem RegFile.overwrite_withOutputs (f : RegFile) (e : BitVec 4) (x v : Word) (p : BitVec 1) (W : List Reg)
    (g : RegFile) :
    (f.withOutputs e x v p).overwrite W g = (f.overwrite W g).withOutputs
      (if .status ∈ W then g.err else e) (if .errInfo ∈ W then g.errInfo else x)
      (if .result ∈ W then g.result else v) (if .transp ∈ W then g.transp else p) := rfl

/-- From other values of the four registers, a command does the same but for these four: each is overwritten in both
runs or in neither. -/
theorem exec_withOutputs (e : BitVec 4) (x v : Word) (p : BitVec 1) (h : exec i s = .next t) :
    ∃ W, Overwrites i s t W ∧
      exec i { s with regs := s.regs.withOutputs e x v p } = .next { t with
        regs := t.regs.withOutputs
          (if .status ∈ W then t.regs.err else e) (if .errInfo ∈ W then t.regs.errInfo else x)
          (if .result ∈ W then t.regs.result else v) (if .transp ∈ W then t.regs.transp else p) } := by
  obtain ⟨W, hW, hx⟩ := exec_overwrites h (s.regs.get_withOutputs e x v p i)
  rw [RegFile.overwrite_withOutputs, hW.kept] at hx
  exact ⟨W, hW, hx⟩

/-- An overwritten value ends as in the first run; one left alone in the first run ends as it was in the second. -/
theorem overwritten_or_kept {α : Type} {p : Prop} [Decidable p] {a b c : α} (h : ¬ p → a = b) :
    (if p then a else c) = a ∨ a = b ∧ (if p then a else c) = c := by
  by_cases hp : p
  · exact .inl (if_pos hp)
  · exact .inr ⟨h hp, if_neg hp⟩

/-- Settles O52: in the second run the command overwrites the same registers with the same values, so a register
outside the column "reads" is overwritten in both runs or in neither, and one outside both columns is not overwritten
but for the read-only STATUS and ERRINFO of a fault, which a register-port write does not set. -/
theorem unreadRegistersDoNotMatter : Obligations.UnreadRegistersDoNotMatter := by
  refine ⟨fun i s t r v hr hw h => exec_put_comm v hr hw h, fun i s t r v hr h => ?_, fun i s t e x v p h => ?_⟩
  · obtain ⟨W, hW, hx⟩ := exec_put_unread v hr h
    exact ⟨_, hx, overwritten_or_kept hW.get_eq⟩
  · obtain ⟨W, hW, hx⟩ := exec_withOutputs e x v p h
    refine ⟨_, _, _, _, hx, ?_, overwritten_or_kept (hW.get_eq (r := .result)), overwritten_or_kept hW.transp_eq⟩
    by_cases hm : .status ∈ W
    · exact .inl ⟨if_pos hm, if_pos (hW.status_mem_iff.mp hm)⟩
    · have hm' : .errInfo ∉ W := mt hW.status_mem_iff.mpr hm
      exact .inr ⟨hW.err_eq hm, hW.get_eq hm', if_neg hm, if_neg hm'⟩

end Sys2Proof.Machine
end

section
/-! SUPPORT. The register port, the program position, and how ERR and ERRINFO change from step to step (`10_state.md`
R20 to R25, R40, R44, R46; `60_exceptions.md` R204, R205). -/

namespace Sys2Proof.Machine

variable {s t : State}

/-! ## Admitted accesses -/

theorem Reg.offset_admitted (r : Reg) : r.offset % 4 = 0 ∧ r.offset ≤ 0x44 := by cases r <;> decide

/-- Every multiple of 4 up to 0x44 is the offset of a register (R21). -/
theorem Reg.exists_offset {off : Nat} (h4 : off % 4 = 0) (hle : off ≤ 0x44) : ∃ r : Reg, r.offset = off := by
  have all : ∀ k < 18, ∃ r ∈ Reg.all, r.offset = 4 * k := by decide
  obtain ⟨r, -, hr⟩ := all (off / 4) (by omega)
  exact ⟨r, by omega⟩

/-- The port admits an access exactly where it is 32 bits wide at one of R21's offsets. -/
theorem exists_accessed_iff {off width : Nat} :
    (∃ r, accessed off width = .ok r) ↔ width = 32 ∧ off % 4 = 0 ∧ off ≤ 0x44 := by
  constructor
  · rintro ⟨r, hr⟩
    obtain ⟨rfl, rfl⟩ := accessed_ok hr
    exact ⟨rfl, r.offset_admitted⟩
  · rintro ⟨rfl, h4, hle⟩
    obtain ⟨r, rfl⟩ := Reg.exists_offset h4 hle
    exact ⟨r, accessed_offset r⟩

/-! ## What an admitted access answers -/

/-- A write to a register other than CMD and CTRL stores, halted or not (R40). -/
theorem writeReg_store {r : Reg} (hc : r ≠ .cmd) (hl : r ≠ .ctrl) (v : Word) (s : State) :
    writeReg r v s = .next { s with regs := s.regs.put v r } := by
  cases r with
  | cmd => exact absurd rfl hc
  | ctrl => exact absurd rfl hl
  | _ => rfl

/-- An admitted write is never refused. -/
theorem writeReg_answers (r : Reg) (v : Word) (s : State) : ∃ t, writeReg r v s = .next t := by
  by_cases hc : r = .cmd
  · subst hc
    exact issueCommand_answers s v
  · by_cases hl : r = .ctrl
    · subst hl
      exact ⟨_, rfl⟩
    · exact ⟨_, writeReg_store hc hl v s⟩

/-- An access that answers at every register is refused exactly where R20 refuses its width or offset. -/
theorem refused_iff_not_admitted {off width : Nat} {op : HostOp} {act : Reg → Host.Outcome State Fault Refusal}
    (hop : perform op s = match accessed off width with | .ok r => act r | .error e => .refused e)
    (hact : ∀ r, ∃ t, act r = .next t) :
    (∃ e, perform op s = .refused e) ↔ ¬ (width = 32 ∧ off % 4 = 0 ∧ off ≤ 0x44) := by
  rw [← exists_accessed_iff, hop]
  cases accessed off width with
  | ok r =>
    obtain ⟨t, ht⟩ := hact r
    simp [ht]
  | error e => simp

/-- Settles O13: an admitted write or read answers a next state. -/
theorem inadmissibleAccessesAreRefused : Obligations.InadmissibleAccessesAreRefused :=
  fun s _ _ v => ⟨refused_iff_not_admitted rfl fun r => writeReg_answers r v s,
    refused_iff_not_admitted rfl fun r => ⟨readReg r s, rfl⟩⟩

/-! ## Stores and reads of the registers -/

/-- The registers of R21 but CMD and CTRL, the read-only ones first. -/
def Reg.stored : List Reg :=
  [.status, .errInfo, .result, .transp, .srcAddr, .srcCnt, .dstAddr, .depth, .width, .height, .stride, .palAddr,
   .palLen, .pixAddr, .maskAddr, .arg]

theorem Reg.ne_of_mem_stored {r : Reg} (h : r ∈ Reg.stored) : r ≠ .cmd ∧ r ≠ .ctrl := by
  revert r; decide

theorem step_write {r : Reg} {v : Word} (hc : r ≠ .cmd) (hl : r ≠ .ctrl) (h : s.fetch? = some (.wr r.offset 32 v)) :
    step s = .next { s with regs := s.regs.put v r, pos := s.pos + 1 } := by
  rw [step_fetched h, perform_write, writeReg_store hc hl, advance]

/-- Settles O11: the table of the statement is the store at each register's own offset. -/
theorem registerWriteStoresItsValue : Obligations.RegisterWriteStoresItsValue := by
  intro s off r v f hmem hf
  obtain ⟨r', hr', he⟩ := List.mem_map.mp
    (show (off, r, f) ∈ Reg.stored.map fun r => (r.offset, r, s.regs.put v r) from hmem)
  cases he
  obtain ⟨hc, hl⟩ := Reg.ne_of_mem_stored hr'
  refine ⟨step_write hc hl hf, fun hw => ⟨RegFile.get_put_self _ _ _ ?_, fun r' => RegFile.get_put_ne _ _ _ _⟩⟩
  revert hw; clear * -; revert r; decide

theorem zeroExtend_eq_append {n m : Nat} (x : BitVec n) : x.zeroExtend (m + n) = (0 : BitVec m) ++ x := by
  refine BitVec.eq_of_toNat_eq ?_
  have hx : x.toNat < 2 ^ (m + n) := x.isLt.trans_le (Nat.pow_le_pow_right (by decide) (Nat.le_add_left n m))
  simp [BitVec.toNat_append, Nat.mod_eq_of_lt hx]

/-- STATUS below 28 zero bits (R23). -/
theorem RegFile.statusWord_eq (f : RegFile) : f.statusWord = (0 : BitVec 28) ++ f.err :=
  zeroExtend_eq_append f.err

/-- TRANSP below 31 zero bits (R39). -/
theorem RegFile.transpWord_eq (f : RegFile) : f.transpWord = (0 : BitVec 31) ++ f.transp :=
  zeroExtend_eq_append f.transp

/-- Settles O12: the table of the statement is the read at each register's own offset. -/
theorem registerReadIsObserved : Obligations.RegisterReadIsObserved := by
  intro s off r v hmem hf
  rw [← RegFile.statusWord_eq, ← RegFile.transpWord_eq] at hmem
  obtain ⟨r', -, he⟩ := List.mem_map.mp
    (show (off, r, v) ∈ Reg.all.map fun r => (r.offset, r, s.regs.get r) from hmem)
  cases he
  rw [step_fetched hf, perform_read, advance]
  exact ⟨rfl, rfl⟩

/-! ## CMD on a halted Block, CTRL and hardware reset -/

theorem halted_iff : s.halted = true ↔ s.regs.err ≠ 0 := bne_iff_ne

theorem not_halted_iff : s.halted = false ↔ s.regs.err = 0 := bne_eq_false_iff_eq

/-- Settles O8: the command write is dropped before the word is decoded. -/
theorem haltedBlockIgnoresCommands : Obligations.HaltedBlockIgnoresCommands := by
  intro s w he hf
  have hp : perform (.wr 0x00 32 w) s = issueCommand w s := perform_write .cmd w s
  rw [step_fetched hf, hp, issueCommand, if_pos (halted_iff.mpr he), advance]

theorem perform_ctrl (w : Word) (s : State) : perform (.wr 0x08 32 w) s = .next (writeCtrl w s) :=
  perform_write .ctrl w s

/-- Settles O14: bit 0 alone decides between the reset of `hardReset` and no effect. -/
theorem ctrlWriteIsASoftReset : Obligations.CtrlWriteIsASoftReset := by
  intro s w hf
  rw [step_fetched hf, perform_ctrl]
  refine ⟨fun h => ?_, fun h => ?_, rfl⟩
  · rw [writeCtrl, if_pos h]
    exact ⟨rfl, rfl⟩
  · rw [writeCtrl, if_neg (by rw [h]; decide)]
    rfl

/-- Settles O15, with the register file of reset. -/
theorem hardwareResetClearsTheBlock : Obligations.HardwareResetClearsTheBlock := by
  intro s hf
  refine ⟨RegFile.reset, ?_, RegFile.get_reset, rfl, fun _ => rfl, rfl, rfl⟩
  rw [step_fetched hf]
  rfl

/-! ## The Host's program -/

theorem tableWord_toNat (w : Word) : tableWord 32 w.toNat = w := by
  rw [tableWord, Nat.mod_eq_of_lt w.isLt, BitVec.ofNat_toNat, BitVec.setWidth_eq]

/-- Settles O7: the operation placed is the one fetched, and it writes the word whole. -/
theorem placedWordIsFetched : Obligations.PlacedWordIsFetched := by
  intro s w
  refine ⟨?_, rfl⟩
  rw [State.withFetchWord, tableWord_toNat]
  exact fetch?_withOp s _

/-- Settles O17: no operation touches the program, its position or the lengths; the step adds one to the position. -/
theorem programPositionAdvancesByOne : Obligations.ProgramPositionAdvancesByOne := by
  intro s t h
  rcases step_cases h with ⟨hf, rfl⟩ | ⟨u, rfl, hp, hu⟩
  · have hend : t.program.length ≤ t.pos := List.getElem?_eq_none_iff.mp hf
    exact ⟨rfl, rfl, rfl, fun hp => absurd hp hend.not_gt, fun _ => rfl⟩
  · suffices hu : u.program = s.program ∧ u.srcLen = s.srcLen ∧ u.dstLen = s.dstLen ∧ u.pos = s.pos by
      obtain ⟨hprog, hsl, hdl, hpos⟩ := hu
      exact ⟨hprog, hsl, hdl, fun _ => congrArg (· + 1) hpos, fun hend => absurd hp hend.not_gt⟩
    rcases hu with ⟨w, -, -, rfl⟩ | ⟨w, i, -, -, -, hx⟩ | ⟨w, e, -, -, -, rfl⟩ | ⟨w, -, rfl⟩ |
      ⟨r, v, -, -, -, rfl⟩ | ⟨r, -, rfl⟩ | ⟨a, b, bs, -, -, rfl⟩ | ⟨-, rfl⟩
    · exact ⟨rfl, rfl, rfl, rfl⟩
    · rw [exec_frame hx]
      exact ⟨rfl, rfl, rfl, rfl⟩
    · exact ⟨rfl, rfl, rfl, rfl⟩
    · rcases writeCtrl_eq_or_eq w s with hw | hw <;> rw [hw] <;> exact ⟨rfl, rfl, rfl, rfl⟩
    all_goals exact ⟨rfl, rfl, rfl, rfl⟩

/-! ## The word of a decoded command -/

section
variable {w v : Word} {i j : Instr}

/-- A word with clear reserved bits is the one with the same three fields (R80). -/
theorem word_eq_of_fields (hr : reservedClear w = true)
    (hv : v.toNat = opField w + (if maskField w then 256 else 0) + 65536 * indexField w) : v = w :=
  BitVec.eq_of_toNat_eq (hv.trans (toNat_of_fields w hr).symm)

theorem encode_of_decodePlain (h : decodePlain w j = .ok i) (hr : reservedClear w = true)
    (ho : opField w = (encode j).toNat) : encode i = w := by
  unfold decodePlain at h
  split_ifs at h with hm hk
  cases h
  exact word_eq_of_fields hr (by simp [ho, hm, not_not.mp hk])

theorem encode_of_decodeExtract (h : decodeExtract w = .ok i) (hr : reservedClear w = true) (ho : opField w = 1) :
    encode i = w := by
  unfold decodeExtract at h
  split_ifs at h with hm
  cases h
  have hk : indexField w ≤ 255 := by rw [indexField_eq]; omega
  refine word_eq_of_fields hr ?_
  rw [encode_extract_toNat hk, ho, if_neg hm]
  omega

theorem encode_of_decodeDecodeBmp (h : decodeDecodeBmp w = .ok i) (hr : reservedClear w = true)
    (ho : opField w = 9) : encode i = w := by
  unfold decodeDecodeBmp at h
  split_ifs at h with hk
  cases h
  refine word_eq_of_fields hr ?_
  rw [ho, not_not.mp hk]
  cases maskField w <;> rfl

/-- A decoded word is the command's own encoding, so ERRINFO records the word written (R24, R204). -/
theorem encode_of_decode (h : decode w = .ok i) : encode i = w := by
  unfold decode at h
  split_ifs at h with hr
  have hr : reservedClear w = true := by simpa using hr
  split at h
  case h_1 ho => exact encode_of_decodeExtract h hr ho
  case h_9 ho => exact encode_of_decodeDecodeBmp h hr ho
  case h_12 => cases h
  all_goals exact encode_of_decodePlain h hr ‹opField w = _›

end

/-! ## ERR and ERRINFO -/

/-- A command that changes ERR or ERRINFO faults: ERR is a code and ERRINFO the command's word (R204). -/
theorem exec_err_changed {i : Instr} (h : exec i s = .next t)
    (hne : t.regs.err ≠ s.regs.err ∨ t.regs.errInfo ≠ s.regs.errInfo) :
    t.regs.err ≠ 0 ∧ t.regs.errInfo = encode i := by
  rcases exec_cases h with ⟨e, rfl⟩ | ⟨-, he, hi, -⟩ | ⟨-, -, rfl⟩
  · exact ⟨e.code_ne_zero, rfl⟩
  · exact absurd hne (by simp [he, hi])
  · exact ⟨ErrorCode.code_ne_zero .indexRange, rfl⟩

/-- Settles O10: of all operations, a reset clears both, a CMD write raises an error, and the others leave both. -/
theorem errIsWrittenOnlyByFaultsAndResets : Obligations.ErrIsWrittenOnlyByFaultsAndResets := by
  intro s t h hne
  have same {u : State} (he : u.regs.err = s.regs.err) (hi : u.regs.errInfo = s.regs.errInfo) :
      ¬ (u.regs.err ≠ s.regs.err ∨ u.regs.errInfo ≠ s.regs.errInfo) := by simp [he, hi]
  rcases step_cases h with ⟨-, rfl⟩ | ⟨u, rfl, -, hu⟩
  · exact absurd hne (same rfl rfl)
  · rcases hu with ⟨w, -, -, rfl⟩ | ⟨w, i, hf, hh, hd, hx⟩ | ⟨w, e, hf, hh, -, rfl⟩ | ⟨w, hf, rfl⟩ |
      ⟨r, v, -, -, -, rfl⟩ | ⟨r, -, rfl⟩ | ⟨a, b, bs, -, -, rfl⟩ | ⟨hf, rfl⟩
    · exact absurd hne (same rfl rfl)
    · obtain ⟨herr, hinfo⟩ := exec_err_changed hx hne
      exact .inr ⟨w, not_halted_iff.mp hh, hf, herr, hinfo.trans (encode_of_decode hd)⟩
    · exact .inr ⟨w, not_halted_iff.mp hh, hf, ErrorCode.code_ne_zero .illegalCommand, rfl⟩
    · by_cases hw : w.getLsbD 0 = true
      · rw [writeCtrl, if_pos hw]
        exact .inl ⟨rfl, rfl, .inr ⟨w, hw, hf⟩⟩
      · rw [writeCtrl, if_neg hw] at hne
        exact absurd hne (same rfl rfl)
    · exact absurd hne (same (s.regs.put_err v r) (s.regs.put_errInfo v r))
    · exact absurd hne (same rfl rfl)
    · exact absurd hne (same rfl rfl)
    · exact .inl ⟨rfl, rfl, .inl hf⟩

/-- Settles O9: on a halted Block the only writers of ERR and ERRINFO are the resets. -/
theorem onlyResetLeavesTheHaltedState : Obligations.OnlyResetLeavesTheHaltedState := by
  intro s t he h
  by_cases hne : t.regs.err ≠ s.regs.err ∨ t.regs.errInfo ≠ s.regs.errInfo
  · rcases errIsWrittenOnlyByFaultsAndResets s t h hne with ⟨-, -, hreset⟩ | ⟨w, he0, -⟩
    · exact .inl hreset
    · exact absurd he0 he
  · exact .inr (by simpa using hne)

end Sys2Proof.Machine
end

section
/-! SUPPORT. The palette: which commands write it, which entries are written after each command and step, and what
LOOKUP reads of it (`10_state.md` R41, R42, R46; `41_bmp_palette.md` R122). -/

namespace Sys2Proof.Machine

variable {s t : State} {i : Instr}

/-! ## What a command leaves unchanged -/

/-- Only the loads write the palette (R41), in a fault none. -/
theorem exec_pal_of_not_load (h1 : i ≠ .ploadBmp) (h2 : i ≠ .ploadBip) (h3 : i ≠ .pindex)
    (h : exec i s = .next t) : t.pal = s.pal := by
  cases i with
  | extract k => rcases execExtract_cases h with ⟨e, rfl⟩ | ⟨-, -, rfl⟩ <;> rfl
  | unpack => rcases execUnpack_cases h with ⟨e, rfl⟩ | ⟨-, -, -, rfl⟩ <;> rfl
  | rdu16 => rcases execRdu16_cases h with ⟨e, rfl⟩ | ⟨-, rfl⟩ <;> rfl
  | rdu32 => rcases execRdu32_cases h with ⟨e, rfl⟩ | ⟨-, rfl⟩ <;> rfl
  | hdrBip => rcases execHdrBip_cases h with ⟨e, rfl⟩ | ⟨-, -, rfl⟩ <;> rfl
  | ploadBmp => exact absurd rfl h1
  | ploadBip => exact absurd rfl h2
  | lookup => rcases execLookup_cases h with ⟨e, rfl⟩ | ⟨-, rfl⟩ <;> rfl
  | decodeBmp m => rcases execDecodeBmp_cases h with ⟨e, rfl⟩ | ⟨-, -, rfl⟩ | ⟨-, -, rfl⟩ <;> rfl
  | decodeBip => rcases execDecodeBip_cases h with ⟨e, rfl⟩ | ⟨-, -, rfl⟩ | ⟨-, -, rfl⟩ <;> rfl
  | pindex => exact absurd rfl h3

/-- A register that the Host can write and that stands outside the column "writes" stays, in a fault too. -/
theorem exec_get_of_writable {r : Reg} (hr : r ∉ writesOf i) (hw : r.writable = true) (h : exec i s = .next t) :
    t.regs.get r = s.regs.get r := by
  obtain ⟨W, hW, -⟩ := exec_overwrites h (f := s.regs) fun _ _ => rfl
  exact hW.get_eq fun hm => Bool.false_ne_true ((hW.readOnly hr hm).symm.trans hw)

/-- A completed command overwrites the registers of R85 alone. -/
theorem exec_get_of_completed {r : Reg} (hr : r ∉ writesOf i) (he : t.regs.err = 0) (h : exec i s = .next t) :
    t.regs.get r = s.regs.get r := by
  obtain ⟨W, hW, -⟩ := exec_overwrites h (f := s.regs) fun _ _ => rfl
  rcases hW.columns with rfl | ⟨-, he'⟩
  · exact hW.get_eq hr
  · exact absurd he he'

/-- Settles O51: a command that completes overwrites the column "writes" alone, and only the loads write PAL. -/
theorem commandsWriteOnlyTheirRegisters : Obligations.CommandsWriteOnlyTheirRegisters :=
  fun _ _ _ _ h he => ⟨fun _ hr => exec_get_of_completed hr he h, fun h1 h2 h3 => exec_pal_of_not_load h1 h2 h3 h⟩

/-! ## Covered palettes -/

theorem palCovered_of_eq (hs : s.PalCovered) (hp : t.pal = s.pal) (hl : t.regs.palLen = s.regs.palLen) :
    t.PalCovered := by
  unfold State.PalCovered
  rw [hp, hl]
  exact hs

/-- A palette with no entry readable is covered. -/
theorem palCovered_of_palLen_zero (h : t.regs.palLen = 0) : t.PalCovered := by
  intro j hj
  rw [h] at hj
  exact absurd hj (Nat.not_lt_zero j)

/-- A load covers the palette when it loads a color for every entry readable after it. -/
theorem palCovered_of_load {p : Palette} {cs : List Color} (hp : t.pal = p.load cs)
    (hl : min t.regs.palLen.toNat 256 ≤ cs.length) : t.PalCovered := by
  intro j hj h256
  rw [hp, p.entry?_load_lt cs j (by omega) h256]
  rfl

theorem length_loadedColors (entryAt : Nat → Color) (p c : Nat) : (loadedColors entryAt p c).length = min c 256 := by
  simp [loadedColors, Config.palCap]

theorem toNat_ofNat_le (n : Nat) : (BitVec.ofNat 32 n).toNat ≤ n := by
  rw [BitVec.toNat_ofNat]
  exact Nat.mod_le _ _

theorem ploadBmpDone_palCovered (s : State) : (ploadBmpDone s).PalCovered := by
  refine palCovered_of_load rfl ?_
  rw [length_loadedColors]
  exact min_le_min_right _ (toNat_ofNat_le s.colorCount)

theorem ploadBipDone_palCovered (s : State) : (ploadBipDone s).PalCovered :=
  palCovered_of_load rfl (length_loadedColors _ _ _).ge

theorem pindexDone_palCovered (s : State) : (pindexDone s).PalCovered :=
  palCovered_of_load rfl (min_le_left _ _ |>.trans (toNat_ofNat_le _))

/-- With more than 256 colors PAL_LEN is 257 and all 256 entries are written (R143). -/
theorem pindexTrueColor_palCovered (h : 256 < (scanPalette [] s.pindexPixels).1.length) :
    (pindexTrueColor s).PalCovered :=
  palCovered_of_load rfl (min_le_right _ _ |>.trans h.le)

/-- A load raises an error and changes nothing else, or completes and covers the palette. -/
theorem exec_load_cases (hi : i = .ploadBmp ∨ i = .ploadBip ∨ i = .pindex) (h : exec i s = .next t) :
    (∃ e, t = s.raise e (encode i)) ∨ t.PalCovered := by
  rcases hi with rfl | rfl | rfl
  · rcases execPloadBmp_cases h with h | ⟨-, -, rfl⟩
    · exact .inl h
    · exact .inr (ploadBmpDone_palCovered s)
  · rcases execPloadBip_cases h with h | ⟨-, rfl⟩
    · exact .inl h
    · exact .inr (ploadBipDone_palCovered s)
  · rcases execPindex_cases h with h | ⟨-, -, ⟨-, rfl⟩ | ⟨hk, rfl⟩⟩
    · exact .inl h
    · exact .inr (pindexDone_palCovered s)
    · exact .inr (pindexTrueColor_palCovered hk)

/-- Settles O53: a load that leaves ERR at 0 raised no error. -/
theorem paletteLoadsCoverPalLen : Obligations.PaletteLoadsCoverPalLen := by
  intro s t _ he h
  have hload : ∃ i, (i = .ploadBmp ∨ i = .ploadBip ∨ i = .pindex) ∧ exec i s = .next t := by
    rcases h with h | h | h
    · exact ⟨_, .inl rfl, h⟩
    · exact ⟨_, .inr (.inl rfl), h⟩
    · exact ⟨_, .inr (.inr rfl), h⟩
  obtain ⟨i, hi, hx⟩ := hload
  rcases exec_load_cases hi hx with ⟨e, rfl⟩ | hc
  · exact absurd he e.code_ne_zero
  · exact hc

theorem palLen_not_mem_writesOf (h0 : i ≠ .hdrBip) (h1 : i ≠ .ploadBmp) (h3 : i ≠ .pindex) :
    .palLen ∉ writesOf i := by
  cases i <;> simp_all [writesOf]

/-- Every command but HDR_BIP keeps the palette covered: a load covers it anew or raises an error, and the others
write neither the palette nor PAL_LEN. -/
theorem exec_palCovered (hi : i ≠ .hdrBip) (hs : s.PalCovered) (h : exec i s = .next t) : t.PalCovered := by
  by_cases hl : i = .ploadBmp ∨ i = .ploadBip ∨ i = .pindex
  · rcases exec_load_cases hl h with ⟨e, rfl⟩ | hc
    · exact hs
    · exact hc
  · obtain ⟨h1, h2, h3⟩ : i ≠ .ploadBmp ∧ i ≠ .ploadBip ∧ i ≠ .pindex := by simpa using hl
    exact palCovered_of_eq hs (exec_pal_of_not_load h1 h2 h3 h)
      (exec_get_of_writable (palLen_not_mem_writesOf hi h1 h3) rfl h)

/-- Settles O54: beside the commands, only a write of PAL_LEN and the resets touch the palette or PAL_LEN, and after a
reset no entry is readable. -/
theorem commandsButHdrBipKeepThePaletteCovered : Obligations.CommandsButHdrBipKeepThePaletteCovered := by
  have reset (s : State) : s.blockReset.PalCovered := palCovered_of_palLen_zero rfl
  refine ⟨fun i s t hi hs h => exec_palCovered hi hs h, fun s t hs hlen hhdr h => ?_, fun s t h => ?_⟩
  · rcases step_cases h with ⟨-, rfl⟩ | ⟨u, rfl, -, hu⟩
    · exact hs
    · suffices hu : u.PalCovered from hu
      rcases hu with ⟨w, -, -, rfl⟩ | ⟨w, i, hf, -, hd, hx⟩ | ⟨w, e, -, -, -, rfl⟩ | ⟨w, -, rfl⟩ |
        ⟨r, v, hf, -, -, rfl⟩ | ⟨r, -, rfl⟩ | ⟨a, b, bs, -, -, rfl⟩ | ⟨-, rfl⟩
      · exact hs
      · refine exec_palCovered (fun hi => hhdr ?_) hs hx
        rw [hf, ← encode_of_decode hd, hi]
        rfl
      · exact hs
      · rcases writeCtrl_eq_or_eq w s with hw | hw <;> rw [hw]
        · exact reset s
        · exact hs
      · have hr : r ≠ .palLen := fun hr => hlen v (by rw [hf, hr]; rfl)
        exact palCovered_of_eq hs rfl (RegFile.get_put_ne s.regs v r .palLen hr.symm)
      · exact hs
      · exact hs
      · exact reset s
  · cases h
    exact reset s

theorem exec_hdrBip_of_checks (h1 : s.srcOK s.regs.srcAddr.toNat 0x10)
    (h2 : s.srcOK (s.regs.srcAddr.toNat + 0x10) (4 * s.memRead (s.regs.srcAddr.toNat + 0xC) 2)) :
    exec .hdrBip s = .next (hdrBipDone s) :=
  (State.require_pos _ _ _ h1).trans (State.require_pos _ _ _ h2)

/-- The Block after reset with a header at 0 that declares two palette entries. -/
def headerWithTwoColors : State := { State.reset with src := [(0xC, 2)] }

/-- Refutes O55: HDR_BIP right after reset makes entries 0 and 1 readable, and no load has written them. -/
theorem not_hdrBipKeepsThePaletteCovered : ¬ Obligations.HdrBipKeepsThePaletteCovered := by
  intro h
  have hc := h headerWithTwoColors _ (palCovered_of_palLen_zero rfl)
    (exec_hdrBip_of_checks (by decide) (by decide))
  exact absurd (hc 0 (by decide) (by decide)) (by decide)

/-! ## LOOKUP -/

/-- A read of the palette answers the entry, where a load has written one. -/
theorem State.entry?_palRead (s : State) (j : Nat) :
    s.pal.entry? j = some (s.palRead j) ∨ s.pal.entry? j = none := by
  cases h : s.pal.entry? j with
  | none => exact .inr rfl
  | some c => left; simp [State.palRead, h]

theorem or_shiftLeft_eq_add {x n : Nat} (y : Nat) (h : x < 2 ^ n) : x ||| y <<< n = x + y * 2 ^ n := by
  rw [Nat.or_comm, ← Nat.shiftLeft_add_eq_or_of_lt h, Nat.shiftLeft_eq, Nat.add_comm]

/-- The packed entry as a number: red in the low byte (R122). -/
theorem Color.packed_eq (c : Color) :
    c.packed = ((c.a.toNat * 256 + c.b.toNat) * 256 + c.g.toNat) * 256 + c.r.toNat := by
  have hr := c.r.isLt
  have hg := c.g.isLt
  have hb := c.b.isLt
  rw [Color.packed, or_shiftLeft_eq_add _ hr, or_shiftLeft_eq_add (n := 16) _ (by omega),
    or_shiftLeft_eq_add (n := 24) _ (by omega)]
  omega

/-- RESULT of LOOKUP is the four channels from high to low byte (R122). -/
theorem Color.ofNat_packed (c : Color) : BitVec.ofNat 32 c.packed = c.a ++ c.b ++ c.g ++ c.r := by
  have h : (c.a ++ c.b ++ c.g ++ c.r).toNat = c.packed := by
    rw [toNat_append_byte, toNat_append_byte, toNat_append_byte, Color.packed_eq]
  rw [← h, BitVec.ofNat_toNat, BitVec.setWidth_eq]

/-- Settles O30, with the entry that the command reads. -/
theorem lookupPacksTheEntry : Obligations.LookupPacksTheEntry := by
  intro s
  refine ⟨fun hi => ⟨s.palRead s.argByte.toNat, s.entry?_palRead _, ?_⟩, fun hi => ?_⟩
  · rw [← Color.ofNat_packed]
    exact State.require_pos _ _ _ hi
  · exact State.require_neg _ _ _ (Nat.not_lt.mpr hi)

end Sys2Proof.Machine
end

section
/-! SUPPORT. The Host's writes of SRC, the header command HDR_BIP and the traps of UNPACK (`20_memory.md` R60, R63, R64,
R67; `40_primitives.md` R108; `43_bip.md` R161). -/

namespace Sys2Proof.Machine

variable {s : State}

/-! ## The Host's write of SRC -/

theorem perform_wsrc_inside {a : Nat} {b : Byte} {bs : List Byte} (h : a + (bs.length + 1) ≤ s.srcLen) :
    perform (.wsrc a b bs) s = .next { s with src := s.src.writeBlock a (b :: bs) } := if_pos h

theorem perform_wsrc_outside {a : Nat} {b : Byte} {bs : List Byte} (h : s.srcLen < a + (bs.length + 1)) :
    perform (.wsrc a b bs) s = .fault .srcWriteOutside := if_neg (Nat.not_le.mpr h)

/-- Settles O16, with the block write of `wsrc` as the next SRC. -/
theorem srcWriteStoresItsBytes : Obligations.SrcWriteStoresItsBytes := by
  intro s a b bs hf
  rw [step_fetched hf]
  refine ⟨fun hin => ⟨s.src.writeBlock a (b :: bs), ?_, fun j hj => ?_, fun x hx => ?_⟩, fun hout => ?_⟩
  · rw [perform_wsrc_inside hin]
    rfl
  · have hj : j < (b :: bs).length := Nat.lt_succ_of_le hj
    rw [Memory.read_writeBlock_inside _ _ _ j hj, List.getElem?_eq_getElem hj]
  · exact Memory.read_writeBlock_outside _ _ _ x hx
  · rw [perform_wsrc_outside hout]
    rfl

/-! ## HDR_BIP -/

/-- A register loaded with a u16 of SRC holds its two bytes, the second one high, below 16 zero bits (R63). -/
theorem State.ofNat_memRead_two (s : State) (a : Nat) :
    BitVec.ofNat 32 (s.memRead a 2) = (0 : BitVec 16) ++ (s.srcByte (a + 1) ++ s.srcByte a) := by
  rw [s.memRead_two, BitVec.ofNat_toNat]
  exact zeroExtend_eq_append (m := 16) _

/-- TRANSP is set iff the two bytes of the u16 are not zero (R161). -/
theorem State.transpFlag_memRead_two (s : State) (a : Nat) :
    transpFlag (s.memRead a 2) = if s.srcByte (a + 1) ++ s.srcByte a = (0 : BitVec 16) then 0 else 1 := by
  rw [s.memRead_two, transpFlag, ite_not]
  exact if_congr (BitVec.toNat_eq (y := (0 : BitVec 16))).symm rfl rfl

/-- An address within a space of at most `2^32 - 1` bytes fits a register without wrap (R6, R67). -/
theorem toNat_ofNat_of_le {x len : Nat} (hx : x ≤ len) (hlen : len ≤ 4294967295) : (BitVec.ofNat 32 x).toNat = x := by
  rw [BitVec.toNat_ofNat, Nat.mod_eq_of_lt (by omega)]

/-- Settles O41: the checks hold, so the command answers `hdrBipDone`, whose fields are the header's u16s. -/
theorem hdrBipLoadsTheFields : Obligations.HdrBipLoadsTheFields := by
  intro s B u16 hlen hhdr hpal
  have hpl : s.memRead (B + 0xC) 2 = (u16 0xC).toNat := s.memRead_two _
  refine ⟨BitVec.ofNat 32 (B + 0x10), BitVec.ofNat 32 (B + 0x10 + 4 * (u16 0xC).toNat), ?_,
    toNat_ofNat_of_le hhdr hlen, toNat_ofNat_of_le hpal hlen⟩
  rw [exec_hdrBip_of_checks hhdr (by rw [State.srcOK, hpl]; exact hpal), ← hpl]
  simp only [hdrBipDone, State.ofNat_memRead_two, State.transpFlag_memRead_two]
  rfl

/-! ## UNPACK -/

/-- Settles O25: UNPACK's checks in their order, each with those before it passed. -/
theorem unpackTraps : Obligations.UnpackTraps := by
  intro s d a c o
  refine ⟨fun hd => ?_, fun hd hsrc => ?_, fun hd hsrc hdst => ?_⟩
  · exact State.require_neg _ _ _ hd
  · exact (State.require_pos _ _ _ hd).trans (State.require_neg _ _ _ (Nat.not_le.mpr hsrc))
  · exact (State.require_pos _ _ _ hd).trans ((State.require_pos _ _ _ hsrc).trans
      (State.require_neg _ _ _ (Nat.not_le.mpr hdst)))

end Sys2Proof.Machine
end

section
/-! SUPPORT. The command word (`30_encoding.md` R80 to R92): decoding and encoding are inverse on well-formed commands
and legal words, a row of the opcode table masks the operand bits out of its command's word, and an illegal word
raises IllegalCommand. -/

namespace Sys2Proof.Machine

variable {s : State} {w : Word} {i j : Instr}

/-! ## The decoder by the fields of the word -/

theorem decodePlain_of_fields (j : Instr) (hm : maskField w = false) (hk : indexField w = 0) :
    decodePlain w j = .ok j := by
  simp [decodePlain, hm, hk]

theorem decodeExtract_of_fields (hm : maskField w = false) : decodeExtract w = .ok (.extract (indexField w)) := by
  simp [decodeExtract, hm]

theorem decodeDecodeBmp_of_fields (hk : indexField w = 0) :
    decodeDecodeBmp w = .ok (.decodeBmp (maskField w)) := by
  simp [decodeDecodeBmp, hk]

/-- The four conditions of R83 on the fields that the decoder reads. -/
theorem legalWord_iff_fields (w : Word) :
    LegalWord w ↔ (1 ≤ opField w ∧ opField w ≤ 11) ∧ reservedClear w = true ∧
      (opField w ≠ 9 → maskField w = false) ∧ (opField w ≠ 1 → indexField w = 0) := by
  rw [legalWord_iff, opField_eq, reservedClear_iff, maskField_eq, indexField_eq, decide_eq_false_iff_not,
    Nat.mod_two_not_eq_one]

theorem exists_decode_of_legalWord (h : LegalWord w) : ∃ i, decode w = .ok i := by
  obtain ⟨⟨h1, h11⟩, hr, hm, hk⟩ := (legalWord_iff_fields w).mp h
  unfold decode
  rw [if_neg (by simp [hr])]
  split
  case h_1 ho => exact ⟨_, decodeExtract_of_fields (hm (by omega))⟩
  case h_9 ho => exact ⟨_, decodeDecodeBmp_of_fields (hk (by omega))⟩
  case h_12 => grind
  all_goals exact ⟨_, decodePlain_of_fields _ (hm (by omega)) (hk (by omega))⟩

/-! ## Decoding the word of a command -/

theorem fields_encode_extract {k : Nat} (hk : k ≤ 255) :
    reservedClear (encode (.extract k)) = true ∧ opField (encode (.extract k)) = 1 ∧
      maskField (encode (.extract k)) = false ∧ indexField (encode (.extract k)) = k := by
  rw [reservedClear_iff, opField_eq, maskField_eq, indexField_eq, decide_eq_false_iff_not,
    encode_extract_toNat hk]
  omega

theorem decode_encode_extract {k : Nat} (hk : k ≤ 255) : decode (encode (.extract k)) = .ok (.extract k) := by
  obtain ⟨hr, ho, hm, hindex⟩ := fields_encode_extract hk
  calc decode (encode (.extract k))
      = decodeExtract (encode (.extract k)) := by rw [decode, if_neg (by simp [hr]), ho]; rfl
    _ = .ok (.extract (indexField (encode (.extract k)))) := decodeExtract_of_fields hm
    _ = .ok (.extract k) := by rw [hindex]

theorem decode_encode (h : i.wf = true) : decode (encode i) = .ok i := by
  cases i with
  | extract k => exact decode_encode_extract (of_decide_eq_true h)
  | decodeBmp m => cases m <;> rfl
  | _ => rfl

/-- Settles O1: the other words are literals, and the fields of EXTRACT's word are the opcode and K. -/
theorem decodeOfEncodeIsTheCommand : Obligations.DecodeOfEncodeIsTheCommand := fun _ h => decode_encode h

/-! ## Encoding the command of a word -/

theorem indexField_le (w : Word) : indexField w ≤ 255 := by
  rw [indexField_eq]
  omega

theorem wf_of_decodePlain (h : decodePlain w j = .ok i) (hj : j.wf = true) : i.wf = true := by
  unfold decodePlain at h
  split_ifs at h
  cases h
  exact hj

theorem wf_of_decodeExtract (h : decodeExtract w = .ok i) : i.wf = true := by
  unfold decodeExtract at h
  split_ifs at h
  cases h
  exact decide_eq_true (indexField_le w)

theorem wf_of_decodeDecodeBmp (h : decodeDecodeBmp w = .ok i) : i.wf = true := by
  unfold decodeDecodeBmp at h
  split_ifs at h
  cases h
  rfl

theorem wf_of_decode (h : decode w = .ok i) : i.wf = true := by
  unfold decode at h
  split_ifs at h
  split at h
  case h_1 => exact wf_of_decodeExtract h
  case h_9 => exact wf_of_decodeDecodeBmp h
  case h_12 => cases h
  all_goals exact wf_of_decodePlain h rfl

/-- The decoder is the inverse of the encoder on well-formed commands. -/
theorem decode_eq_ok_iff : decode w = .ok i ↔ i.wf = true ∧ encode i = w :=
  ⟨fun h => ⟨wf_of_decode h, encode_of_decode h⟩, fun ⟨hi, h⟩ => h ▸ decode_encode hi⟩

/-- Settles O2: an accepted word has clear reserved bits, so it is its opcode, M and K, which its command keeps. -/
theorem encodeOfDecodeIsTheWord : Obligations.EncodeOfDecodeIsTheWord := fun _ _ => decode_eq_ok_iff.mp

/-! ## Legal words -/

theorem legalWord_encode (h : i.wf = true) : LegalWord (encode i) := by
  cases i with
  | extract k => exact Laws.EncodesLegally.extract k h
  | decodeBmp m => exact Laws.EncodesLegally.decodeBmp m h
  | _ => decide

theorem exists_decode_iff_legalWord (w : Word) : (∃ i, decode w = .ok i) ↔ LegalWord w := by
  refine ⟨fun ⟨i, h⟩ => ?_, exists_decode_of_legalWord⟩
  rw [← encode_of_decode h]
  exact legalWord_encode (wf_of_decode h)

theorem exists_error_of_not_legalWord (h : ¬ LegalWord w) : ∃ e, decode w = .error e := by
  rw [← exists_decode_iff_legalWord] at h
  cases hd : decode w with
  | ok i => exact absurd ⟨i, hd⟩ h
  | error e => exact ⟨e, rfl⟩

/-- On a Block that is not halted, a step that fetches an illegal command word raises IllegalCommand (R83). -/
theorem step_illegal {e : DecodeError} (hf : s.fetch? = some (.write .cmd w)) (hh : s.halted = false)
    (hd : decode w = .error e) : step s = advance (.next (s.raise .illegalCommand w)) := by
  rw [step_fetched hf, HostOp.write, perform_write]
  simp [writeReg, issueCommand, hh, hd]

theorem encode_extract_eq_ofNat {k : Nat} (hk : k ≤ 255) : encode (.extract k) = BitVec.ofNat 32 (k * 65536 + 1) := by
  apply BitVec.eq_of_toNat_eq
  rw [encode_extract_toNat hk, BitVec.toNat_ofNat]
  omega

theorem exec_extract_index_outside {k : Nat} (hd : validDepth s.regs.depth.toNat) (hk : 8 / s.regs.depth.toNat ≤ k) :
    exec (.extract k) s = .next (s.raise .illegalCommand (encode (.extract k))) :=
  (State.require_pos _ _ _ hd).trans (State.require_neg _ _ _ (Nat.not_lt.mpr hk))

/-- Settles O3: the decoder's checks are R83's conditions, and both errors are `raise` and nothing else. -/
theorem illegalWordsRaiseIllegalCommand : Obligations.IllegalWordsRaiseIllegalCommand := by
  refine ⟨fun w => ?_, fun w s hw hh hf => ?_, fun k s hk hd hout => ?_⟩
  · rw [exists_decode_iff_legalWord, LegalWord, ← opField_eq]
    rfl
  · obtain ⟨e, hd⟩ := exists_error_of_not_legalWord (mt (exists_decode_iff_legalWord w).mpr hw)
    exact step_illegal hf hh hd
  · rw [exec_extract_index_outside hd hout, encode_extract_eq_ofNat hk]
    rfl

/-! ## The rows of the opcode table -/

theorem toNat_and_not_add_toNat_and (w m : Word) : (w &&& ~~~m).toNat + (w &&& m).toNat = w.toNat := by
  have disjoint : (w &&& ~~~m) &&& (w &&& m) = 0#32 := by ext b; grind
  rw [← BitVec.toNat_add_of_and_eq_zero disjoint, BitVec.add_eq_or_of_and_eq_zero _ _ disjoint]
  congr 1
  ext b
  grind

/-- The mask of the `n` bits from `o` keeps that field of the word in its place. -/
theorem and_fieldMask (w : Word) (o n : Nat) :
    w &&& (BitVec.allOnes n).setWidth 32 <<< o = (w.extractLsb' o n).setWidth 32 <<< o := by
  ext b
  grind

theorem toNat_and_indexBits (w : Word) : (w &&& 0x00FF0000).toNat = 65536 * indexField w := by
  have hk := indexField_le w
  calc (w &&& 0x00FF0000).toNat
      = ((w.extractLsb' 16 8).setWidth 32 <<< 16 : BitVec 32).toNat := congrArg BitVec.toNat (and_fieldMask w 16 8)
    _ = indexField w * 2 ^ 16 % 2 ^ 32 := by simp [indexField, Nat.shiftLeft_eq]
    _ = 65536 * indexField w := by omega

theorem toNat_and_maskBit (w : Word) : (w &&& 0x100).toNat = if maskField w then 256 else 0 := by
  have bit8 : (w &&& 0x100).toNat = 2 ^ 8 * (maskField w).toNat := by
    rw [BitVec.toNat_and, Nat.and_comm]
    exact Nat.two_pow_and w.toNat 8
  rw [bit8]
  cases maskField w <;> rfl

/-- A word is what the EXTRACT row's mask keeps of it and its field K (R80). -/
theorem toNat_and_extractMask_add (w : Word) : (w &&& 0xFF00FFFF).toNat + 65536 * indexField w = w.toNat := by
  rw [← toNat_and_indexBits]
  exact toNat_and_not_add_toNat_and w 0x00FF0000

/-- A word is what the DECODE_BMP row's mask keeps of it and its field M (R80). -/
theorem toNat_and_decodeBmpMask_add (w : Word) :
    (w &&& 0xFFFFFEFF).toNat + (if maskField w then 256 else 0) = w.toNat := by
  rw [← toNat_and_maskBit]
  exact toNat_and_not_add_toNat_and w 0x100

theorem encode_decodeBmp_toNat (m : Bool) : (encode (.decodeBmp m)).toNat = 9 + if m then 256 else 0 := by
  cases m <;> rfl

theorem extractRow_iff (w : Word) : w &&& 0xFF00FFFF = 0x01 ↔ decode w = .ok (.extract (indexField w)) := by
  have hle := indexField_le w
  have hw := toNat_and_extractMask_add w
  have hwf : Instr.wf (.extract (indexField w)) = true := decide_eq_true hle
  rw [decode_eq_ok_iff, and_iff_right hwf, ← BitVec.toNat_inj, ← BitVec.toNat_inj, encode_extract_toNat hle]
  change (w &&& 0xFF00FFFF).toNat = 1 ↔ _
  omega

theorem decodeBmpRow_iff (w : Word) : w &&& 0xFFFFFEFF = 0x09 ↔ decode w = .ok (.decodeBmp (maskField w)) := by
  have hw := toNat_and_decodeBmpMask_add w
  have hwf : Instr.wf (.decodeBmp (maskField w)) = true := rfl
  rw [decode_eq_ok_iff, and_iff_right hwf, ← BitVec.toNat_inj, ← BitVec.toNat_inj, encode_decodeBmp_toNat]
  change (w &&& 0xFFFFFEFF).toNat = 9 ↔ _
  omega

/-- The row of a command without operand bits matches its one word. -/
theorem plainRow_iff (w : Word) (j : Instr) (hj : j.wf = true) : w &&& 0xFFFFFFFF = encode j ↔ decode w = .ok j := by
  rw [decode_eq_ok_iff, and_iff_right hj, eq_comm (a := encode j)]
  exact Eq.congr_left BitVec.and_allOnes

theorem indexField_of_decode {k : Nat} (h : decode w = .ok (.extract k)) : k = indexField w := by
  obtain ⟨hk, rfl⟩ := decode_eq_ok_iff.mp h
  exact (fields_encode_extract (of_decide_eq_true hk)).2.2.2.symm

theorem maskField_of_decode {m : Bool} (h : decode w = .ok (.decodeBmp m)) : m = maskField w := by
  obtain ⟨-, rfl⟩ := decode_eq_ok_iff.mp h
  cases m <;> rfl

/-- Settles O4, row by row. -/
theorem opcodeTableRowsSelectTheirCommands : Obligations.OpcodeTableRowsSelectTheirCommands := by
  refine fun w => ⟨extractRow_iff w, plainRow_iff w .unpack rfl, plainRow_iff w .rdu16 rfl, plainRow_iff w .rdu32 rfl,
    plainRow_iff w .hdrBip rfl, plainRow_iff w .ploadBmp rfl, plainRow_iff w .ploadBip rfl, plainRow_iff w .lookup rfl,
    decodeBmpRow_iff w, plainRow_iff w .decodeBip rfl, plainRow_iff w .pindex rfl, fun k h => ?_, fun m h => ?_⟩
  · obtain rfl := indexField_of_decode h
    exact ⟨(extractRow_iff w).mpr h, rfl⟩
  · obtain rfl := maskField_of_decode h
    exact ⟨(decodeBmpRow_iff w).mpr h, rfl⟩

/-! ## The words written out -/

/-- Settles O5: the three words are the encodings of their commands, and the others break a condition of R83. -/
theorem writtenOutWordsDecode : Obligations.WrittenOutWordsDecode := by
  have both {i : Instr} {w : Word} (hi : i.wf = true) (h : encode i = w) : decode w = .ok i ∧ encode i = w :=
    ⟨decode_eq_ok_iff.mpr ⟨hi, h⟩, h⟩
  refine ⟨both rfl (by decide), both rfl (by decide), both rfl (by decide), ?_, ?_, ?_, ?_, ?_⟩ <;>
    exact exists_error_of_not_legalWord (by decide)

end Sys2Proof.Machine
end

section
/-! SUPPORT. The byte-buffer primitives EXTRACT, UNPACK, RDU16 and RDU32 with the fields, rows and strides they rest on,
and the traps of PLOAD_BMP (`40_primitives.md` R100 to R110; `41_bmp_palette.md` R121). -/

namespace Sys2Proof.Machine

variable {s : State}

/-! ## Fields -/

/-- Bit `j` of a field is bit `j` of the byte shifted down to the field (R101). -/
theorem testBit_field {d j : Nat} (b : Byte) (k : Nat) (hj : j < d) :
    (field b d k).testBit j = b.getLsbD (8 - d * (k + 1) + j) := by
  rw [field, Nat.testBit_and, Nat.testBit_shiftRight, Nat.testBit_two_pow_sub_one, decide_eq_true hj, Bool.and_true,
    BitVec.testBit_toNat]

/-- Field 0 is the top `d` bits: nothing stands above it for the mask to clear (R101). -/
theorem field_zero {d : Nat} (b : Byte) (hd : d ≤ 8) : field b d 0 = b.toNat / 2 ^ (8 - d) := by
  have hb : b.toNat < 2 ^ d * 2 ^ (8 - d) := by
    rw [← Nat.pow_add, Nat.add_sub_cancel' hd]
    exact b.isLt
  rw [field, Nat.zero_add, Nat.mul_one, Nat.shiftRight_eq_div_pow, Nat.and_two_pow_sub_one_eq_mod,
    Nat.mod_eq_of_lt (Nat.div_lt_of_lt_mul (by rwa [Nat.mul_comm]))]

theorem field_depth_eight (b : Byte) : field b 8 0 = b.toNat := by
  rw [field_zero b le_rfl, Nat.sub_self, Nat.pow_zero, Nat.div_one]

theorem validDepth.le_eight {d : Nat} (h : validDepth d) : d ≤ 8 := by
  rcases h with rfl | rfl | rfl | rfl <;> decide

/-- Settles O19, bit by bit. -/
theorem fieldIsItsBitGroup : Obligations.FieldIsItsBitGroup := fun b d k hd _ =>
  ⟨field_lt b d k, fun _ hj => testBit_field b k hj, field_zero b hd.le_eight, field_depth_eight b⟩

/-! ## Unpacking -/

theorem getElem?_unpack {bs : List Byte} {d i : Nat} {b : Byte} (hd : validDepth d) (hb : bs[i / (8 / d)]? = some b) :
    (unpack bs d)[i]? = some (field b d (i % (8 / d))) := by
  obtain ⟨hlt, -⟩ := List.getElem?_eq_some_iff.mp hb
  have hi : i < (unpack bs d).length := by
    rw [length_unpack, fieldCount_eq hd]
    exact (Nat.div_lt_iff_lt_mul (fieldsPerByte_pos hd)).mp hlt
  rw [List.getElem?_eq_getElem hi, getElem_unpack, List.getD_eq_getElem?_getD, hb, Option.getD_some]

theorem unpack_depth_eight (bs : List Byte) : unpack bs 8 = bs.map BitVec.toNat := by
  refine List.ext_getElem (by simp) fun i h _ => ?_
  have hi : i < bs.length := by simpa using h
  rw [getElem_unpack, Nat.div_self (by decide), Nat.div_one, Nat.mod_one, field_depth_eight, List.getElem_map,
    List.getD_eq_getElem _ _ hi]

/-- The fields of `bs ++ cs` are the whole bytes' worth of fields of `bs` and then those of `cs`, whose positions start
at a multiple of the fields per byte (R109). -/
theorem unpack_append {d : Nat} (bs cs : List Byte) (hd : validDepth d) :
    unpack (bs ++ cs) d = unpack bs d ++ unpack cs d := by
  have hp := fieldsPerByte_pos hd
  have hlen : (bs ++ cs).length * 8 / d = bs.length * (8 / d) + cs.length * (8 / d) := by
    rw [fieldCount_eq hd, List.length_append, Nat.add_mul]
  rw [unpack, hlen, List.range_add, List.map_append, List.map_map, unpack, unpack, fieldCount_eq hd, fieldCount_eq hd]
  congr 1 <;> refine List.map_congr_left fun i hi => ?_
  · rw [List.getD_append _ _ _ _ ((Nat.div_lt_iff_lt_mul hp).mpr (List.mem_range.mp hi))]
  · rw [Function.comp_apply, Nat.mul_comm, Nat.mul_add_div hp, Nat.mul_add_mod,
      List.getD_append_right _ _ _ _ (Nat.le_add_right _ _), Nat.add_sub_cancel_left]

theorem lt_of_mem_unpack {bs : List Byte} {d x : Nat} (h : x ∈ unpack bs d) : x < 2 ^ d := by
  obtain ⟨i, -, rfl⟩ := List.mem_map.mp h
  exact field_lt _ d _

/-- Settles O20: an element is found through the byte it lies in, and one byte is the row of length 1. -/
theorem unpackerLawsHold : Obligations.UnpackerLawsHold := by
  refine fun bs cs d hd => ⟨length_unpack bs d, fun i b hb => getElem?_unpack hd hb, unpack_depth_eight bs,
    unpack_append bs cs hd, fun b k hk => ?_, fun x hx => lt_of_mem_unpack hx⟩
  have hb : [b][k / (8 / d)]? = some b := by rw [Nat.div_eq_of_lt hk]; rfl
  rw [getElem?_unpack hd hb, Nat.mod_eq_of_lt hk]

/-! ## Rows -/

/-- A ceiling to bytes and then to 4 bytes is one ceiling to 32 bits (R103). -/
theorem bmpStride_eq_roundUp (w d : Nat) : bmpStride w d = (bipRowLen w d + 3) / 4 * 4 := by
  rw [bmpStride, bipRowLen, Nat.mul_comm d w]
  omega

/-- `bipRowLen` is the least number of bytes that holds `w * d` bits (R104). -/
theorem bipRowLen_bounds (w d : Nat) : w * d ≤ 8 * bipRowLen w d ∧ 8 * bipRowLen w d < w * d + 8 := by
  unfold bipRowLen
  omega

/-- Settles O21: both lengths are ceilings of `w * d`, and the bytes of a row hold its `w` fields. -/
theorem rowStridesCoverTheRow : Obligations.RowStridesCoverTheRow := fun w d hd =>
  ⟨rfl, bipRowLen_bounds w d, bmpStride_eq_roundUp w d, rfl, by simp [bmpStride], by simp [bipRowLen],
    bipRowLen_le_bmpStride hd, fun bs hl => by rw [length_unpack]; exact rowLen_suffices hd hl⟩

/-! ## UNPACK -/

/-- The bytes that UNPACK writes to DST (R108). -/
def State.unpackOutput (s : State) : List Byte :=
  (unpack (s.srcBytes s.regs.srcAddr.toNat s.regs.srcCnt.toNat) s.regs.depth.toNat).map indexByte

theorem State.length_unpackOutput (hd : validDepth s.regs.depth.toNat) :
    s.unpackOutput.length = s.regs.srcCnt.toNat * (8 / s.regs.depth.toNat) := by
  rw [State.unpackOutput, List.length_map, length_unpack, State.length_srcBytes, fieldCount_eq hd]

/-- Byte `i` of UNPACK's output is field `i` of the row: a field fits a byte. -/
theorem State.toNat_getElem_unpackOutput {i : Nat} (hd : validDepth s.regs.depth.toNat)
    (hi : i < s.unpackOutput.length) :
    s.unpackOutput[i].toNat = field (s.srcByte (s.regs.srcAddr.toNat + i / (8 / s.regs.depth.toNat)))
      s.regs.depth.toNat (i % (8 / s.regs.depth.toNat)) := by
  have hbyte : i / (8 / s.regs.depth.toNat) < s.regs.srcCnt.toNat := by
    rw [State.length_unpackOutput hd] at hi
    exact (Nat.div_lt_iff_lt_mul (fieldsPerByte_pos hd)).mpr hi
  simp only [State.unpackOutput, List.getElem_map, getElem_unpack]
  rw [s.getD_srcBytes _ _ _ hbyte, indexByte_toNat (field_lt_256 _ _ _)]

theorem exec_unpack_of_checks (hd : validDepth s.regs.depth.toNat)
    (hsrc : s.srcOK s.regs.srcAddr.toNat s.regs.srcCnt.toNat)
    (hdst : s.dstOK s.regs.dstAddr.toNat (s.regs.srcCnt.toNat * (8 / s.regs.depth.toNat))) :
    exec .unpack s = .next ((s.writeDst s.regs.dstAddr.toNat s.unpackOutput).setResult
      (s.regs.srcCnt.toNat * (8 / s.regs.depth.toNat))) :=
  (State.require_pos _ _ _ hd).trans ((State.require_pos _ _ _ hsrc).trans (State.require_pos _ _ _ hdst))

/-- Settles O24: the block written to DST is the row's fields, and they fill exactly the range that was checked. -/
theorem unpackResult : Obligations.UnpackResult := by
  intro s d a o n hd hsrc hdst
  have hlen : s.unpackOutput.length = n := State.length_unpackOutput hd
  refine ⟨s.dst.writeBlock o s.unpackOutput, exec_unpack_of_checks hd hsrc hdst, fun i hi => ?_, fun x hx => ?_,
    toNat_ofNat_of_le (le_of_add_le_right hdst)⟩
  · rw [Memory.read_writeBlock_inside _ _ _ i (hlen ▸ hi)]
    exact State.toNat_getElem_unpackOutput hd _
  · exact Memory.read_writeBlock_outside _ _ _ x (hlen ▸ hx)

/-! ## RDU16 and RDU32 -/

/-- Settles O26: the one check, and the u16 read as its two bytes. -/
theorem rdu16ReadsLittleEndian : Obligations.Rdu16ReadsLittleEndian := by
  refine fun s => ⟨fun hin => ?_, fun hout => State.require_neg _ _ _ (Nat.not_le.mpr hout)⟩
  rw [← State.ofNat_memRead_two]
  exact State.require_pos _ _ _ hin

/-- A register loaded with a u32 of SRC holds its four bytes, the last one high (R63). -/
theorem State.ofNat_memRead_four (s : State) (a : Nat) :
    BitVec.ofNat 32 (s.memRead a 4) = s.srcByte (a + 3) ++ s.srcByte (a + 2) ++ s.srcByte (a + 1) ++ s.srcByte a := by
  rw [s.memRead_four, BitVec.ofNat_toNat, BitVec.setWidth_eq]

/-- Settles O27: the one check, and the u32 read as its four bytes. -/
theorem rdu32ReadsLittleEndian : Obligations.Rdu32ReadsLittleEndian := by
  refine fun s => ⟨fun hin => ?_, fun hout => State.require_neg _ _ _ (Nat.not_le.mpr hout)⟩
  rw [← State.ofNat_memRead_four]
  exact State.require_pos _ _ _ hin

/-! ## EXTRACT -/

/-- Settles O22: both checks pass, and the byte is taken from `ARG[7:0]`. -/
theorem extractResult : Obligations.ExtractResult := fun _ _ hd hk =>
  (State.require_pos _ _ _ hd).trans (State.require_pos _ _ _ hk)

/-- Settles O23: the depth is checked first, then the range of K. -/
theorem extractTraps : Obligations.ExtractTraps := fun _ _ =>
  ⟨fun hd => State.require_neg _ _ _ hd, exec_extract_index_outside⟩

/-! ## PLOAD_BMP -/

/-- The effective color count by PAL_LEN as a word (R121). -/
theorem State.colorCount_eq (s : State) :
    s.colorCount = if s.regs.palLen = 0 then 2 ^ s.regs.depth.toNat else s.regs.palLen.toNat :=
  if_congr (BitVec.toNat_eq (y := (0 : Word))).symm rfl rfl

/-- Settles O29: the depth is checked first, then the whole palette region. -/
theorem ploadBmpTraps : Obligations.PloadBmpTraps := by
  rintro s c hc
  obtain rfl : c = s.colorCount := hc.trans s.colorCount_eq.symm
  exact ⟨fun hd => State.require_neg _ _ _ hd,
    fun hd hout => (State.require_pos _ _ _ hd).trans (State.require_neg _ _ _ (Nat.not_le.mpr hout))⟩

end Sys2Proof.Machine
end

section
/-! SUPPORT. The decode direction of the BMP palette indexer: the entries PLOAD_BMP loads, the pixels DECODE_BMP writes,
and that they are what LOOKUP answers (`41_bmp_palette.md` R121 to R127). -/

namespace Sys2Proof.Machine

variable {s t : State} {m : Bool} {x y : Nat}

/-! ## PLOAD_BMP -/

theorem exec_ploadBmp_of_checks (hd : validDepth s.regs.depth.toNat)
    (hsrc : s.srcOK s.regs.palAddr.toNat (4 * s.colorCount)) : exec .ploadBmp s = .next (ploadBmpDone s) :=
  (State.require_pos _ _ _ hd).trans (State.require_pos _ _ _ hsrc)

theorem getElem_loadedColors (entryAt : Nat → Color) (p c i : Nat) (hi : i < (loadedColors entryAt p c).length) :
    (loadedColors entryAt p c)[i] = entryAt (p + 4 * i) := by
  simp [loadedColors]

/-- An entry below the effective count holds the BGRX bytes of its SRC address (R121). -/
theorem ploadBmpDone_entry? {i : Nat} (hi : i < s.colorCount) (h256 : i < 256) :
    (ploadBmpDone s).pal.entry? i = some (s.bgrxAt (s.regs.palAddr.toNat + 4 * i)) := by
  have hlen : i < (loadedColors s.bgrxAt s.regs.palAddr.toNat s.colorCount).length := by
    rw [length_loadedColors]
    exact lt_min hi h256
  rw [← getElem_loadedColors s.bgrxAt _ _ _ hlen]
  exact s.pal.entry?_load_lt _ i hlen h256

/-- An entry from the effective count on stays. -/
theorem ploadBmpDone_entry?_of_le {i : Nat} (hi : s.colorCount ≤ i) :
    (ploadBmpDone s).pal.entry? i = s.pal.entry? i := by
  refine s.pal.entry?_load_ge _ i ?_
  rw [length_loadedColors]
  exact (min_le_left _ _).trans hi

/-- A written entry reads as it was written. -/
theorem State.palRead_of_entry? {i : Nat} {c : Color} (h : s.pal.entry? i = some c) : s.palRead i = c := by
  simp [State.palRead, h]

theorem State.palLen_le_colorCount (s : State) : s.regs.palLen.toNat ≤ s.colorCount := by
  unfold State.colorCount
  split_ifs with h
  · rw [h]
    exact Nat.zero_le _
  · exact le_rfl

/-- The effective count fits PAL_LEN: the default count is at most 256. -/
theorem State.toNat_ofNat_colorCount (hd : validDepth s.regs.depth.toNat) :
    (BitVec.ofNat 32 s.colorCount).toNat = s.colorCount := by
  have hdefault : 2 ^ s.regs.depth.toNat ≤ 2 ^ 8 := Nat.pow_le_pow_right (by decide) hd.le_eight
  have hreg := s.regs.palLen.isLt
  rw [BitVec.toNat_ofNat]
  refine Nat.mod_eq_of_lt ?_
  unfold State.colorCount
  split_ifs <;> omega

/-- Settles O28: both checks pass, so the command answers `ploadBmpDone`. -/
theorem ploadBmpLoadsTheEntries : Obligations.PloadBmpLoadsTheEntries := by
  rintro s c hc p hd hsrc
  obtain rfl : c = s.colorCount := hc.trans s.colorCount_eq.symm
  refine ⟨ploadBmpDone s, exec_ploadBmp_of_checks hd hsrc, rfl, State.toNat_ofNat_colorCount hd,
    fun i hi h256 => ?_, fun i hi => ploadBmpDone_entry?_of_le hi⟩
  have hentry := ploadBmpDone_entry? hi h256
  exact ⟨State.palRead_of_entry? hentry, by rw [hentry]; rfl⟩

/-! ## The pixels of DECODE_BMP -/

/-- The DST address of output pixel `(x, y)` of DECODE_BMP (R125). -/
def State.bmpPixelAddr (s : State) (x y : Nat) : Nat :=
  s.regs.dstAddr.toNat + 4 * (y * s.regs.width.toNat + x)

theorem State.getElem?_bmpIndices (hd : validDepth s.regs.depth.toNat) (hx : x < s.regs.width.toNat)
    (hy : y < s.regs.height.toNat) : s.bmpIndices[y * s.regs.width.toNat + x]? = some (s.bmpIndexAt x y) :=
  s.getElem?_bottomUpIndices hd hx hy

/-- The mapped indices are in range iff every pixel's index is: padding plays no part (R126). -/
theorem State.bmpIndices_lt_iff (hd : validDepth s.regs.depth.toNat) {b : Nat} :
    (∀ i ∈ s.bmpIndices, i < b) ↔
      ∀ x y, x < s.regs.width.toNat → y < s.regs.height.toNat → s.bmpIndexAt x y < b :=
  forall_mem_iff_pixels s.bmpIndexAt (s.length_bottomUpIndices hd) fun _ _ => State.getElem?_bmpIndices hd

theorem position_lt {W H : Nat} (hx : x < W) (hy : y < H) : y * W + x < W * H := by
  have hrow : (y + 1) * W ≤ H * W := Nat.mul_le_mul_right W hy
  rw [Nat.succ_mul, Nat.mul_comm H W] at hrow
  omega

/-- The mask bit of pixel `(x, y)`, clear where the command has no mask (R123). -/
theorem State.getElem?_maskBits (s : State) (m : Bool) (hx : x < s.regs.width.toNat)
    (hy : y < s.regs.height.toNat) :
    (s.maskBits m s.regs.maskAddr.toNat s.regs.width.toNat s.regs.height.toNat)[y * s.regs.width.toNat + x]? =
      some (if m then s.maskBitAt x y else 0) := by
  cases m with
  | false => exact List.getElem?_replicate_of_lt (position_lt hx hy)
  | true => exact s.getElem?_bottomUpIndices (.inl rfl) hx hy

/-- Byte `j` of pixel `(x, y)` in the output of DECODE_BMP. -/
theorem State.getElem?_bmpOutput (m : Bool) (hd : validDepth s.regs.depth.toNat) (hx : x < s.regs.width.toNat)
    (hy : y < s.regs.height.toNat) {j : Nat} (hj : j < 4) :
    (s.bmpOutput m)[4 * (y * s.regs.width.toNat + x) + j]? =
      (bmpPixel (s.palRead (s.bmpIndexAt x y)) (if m then s.maskBitAt x y else 0))[j]? := by
  have hpair := List.getElem?_zip_eq_some (z := (s.bmpIndexAt x y, if m then s.maskBitAt x y else 0)).mpr
    ⟨State.getElem?_bmpIndices hd hx hy, s.getElem?_maskBits m hx hy⟩
  rw [State.bmpOutput, getElem?_flatMap_pieces _ 4 (fun _ => length_bmpPixel _ _) _ _ _ hj, hpair, Option.bind_some]

theorem Memory.read_writeBlock_of_getElem? {bs : List Byte} {j : Nat} {b : Byte} (n : Memory) (a : Nat)
    (h : bs[j]? = some b) : (n.writeBlock a bs).read (a + j) = b := by
  obtain ⟨hj, rfl⟩ := List.getElem?_eq_some_iff.mp h
  exact n.read_writeBlock_inside a bs j hj

/-- The four DST bytes of each pixel of a completed DECODE_BMP (R123, R126). -/
theorem decodeBmpDone_pixel (m : Bool) (hd : validDepth s.regs.depth.toNat) (hx : x < s.regs.width.toNat)
    (hy : y < s.regs.height.toNat) :
    (decodeBmpDone m s).dst.read (s.bmpPixelAddr x y) = (s.palRead (s.bmpIndexAt x y)).r ∧
    (decodeBmpDone m s).dst.read (s.bmpPixelAddr x y + 1) = (s.palRead (s.bmpIndexAt x y)).g ∧
    (decodeBmpDone m s).dst.read (s.bmpPixelAddr x y + 2) = (s.palRead (s.bmpIndexAt x y)).b ∧
    (decodeBmpDone m s).dst.read (s.bmpPixelAddr x y + 3) =
      if m = true ∧ s.maskBitAt x y = 1 then 0 else 255 := by
  have byte (j : Nat) (b : Byte) (hj : j < 4)
      (hb : (bmpPixel (s.palRead (s.bmpIndexAt x y)) (if m then s.maskBitAt x y else 0))[j]? = some b) :
      (decodeBmpDone m s).dst.read (s.bmpPixelAddr x y + j) = b := by
    rw [← State.getElem?_bmpOutput m hd hx hy hj] at hb
    rw [State.bmpPixelAddr, Nat.add_assoc]
    exact s.dst.read_writeBlock_of_getElem? _ hb
  refine ⟨byte 0 _ (by decide) rfl, byte 1 _ (by decide) rfl, byte 2 _ (by decide) rfl,
    (byte 3 _ (by decide) rfl).trans ?_⟩
  cases m <;> simp

/-! ## DECODE_BMP -/

theorem exec_decodeBmp_of_indices (hc : BmpChecks m s)
    (hi : ∀ x y, x < s.regs.width.toNat → y < s.regs.height.toNat → s.bmpIndexAt x y < s.regs.palLen.toNat) :
    exec (.decodeBmp m) s = .next (decodeBmpDone m s) :=
  (execDecodeBmp_of_checks hc).trans (if_pos ((State.bmpIndices_lt_iff hc.depth).mpr hi))

theorem exec_decodeBmp_of_index_outside (hc : BmpChecks m s) (hx : x < s.regs.width.toNat)
    (hy : y < s.regs.height.toNat) (hi : s.regs.palLen.toNat ≤ s.bmpIndexAt x y) :
    exec (.decodeBmp m) s =
      .next ((s.scrambleDst s.regs.dstAddr.toNat (4 * s.regs.width.toNat * s.regs.height.toNat)).raise .indexRange
        (encode (.decodeBmp m))) :=
  (execDecodeBmp_of_checks hc).trans
    (if_neg fun h => hi.not_gt ((State.bmpIndices_lt_iff hc.depth).mp h x y hx hy))

/-- A DECODE_BMP that leaves ERR at 0 passed its checks and wrote its pixels. -/
theorem exec_decodeBmp_completed (h : exec (.decodeBmp m) s = .next t) (he : t.regs.err = 0) :
    BmpChecks m s ∧ (∀ i ∈ s.bmpIndices, i < s.regs.palLen.toNat) ∧ t = decodeBmpDone m s := by
  rcases execDecodeBmp_cases h with ⟨e, rfl⟩ | hdone | ⟨-, -, rfl⟩
  · exact absurd he e.code_ne_zero
  · exact hdone
  · exact absurd he (ErrorCode.code_ne_zero .indexRange)

/-- DST outside the `4 * W * H` bytes stays, in an IndexRange too (R206). -/
theorem exec_decodeBmp_dst_outside (h : exec (.decodeBmp m) s = .next t) (a : Nat)
    (ha : a < s.regs.dstAddr.toNat ∨
      s.regs.dstAddr.toNat + 4 * (s.regs.width.toNat * s.regs.height.toNat) ≤ a) :
    t.dst.read a = s.dst.read a :=
  exec_dst_outside h a (by rwa [← Nat.mul_assoc] at ha)

/-- Settles O31: the checks and the indices hold, so the command answers `decodeBmpDone`. -/
theorem decodeBmpWritesThePixels : Obligations.DecodeBmpWritesThePixels := by
  intro s m W H o hc hi
  have hexec := exec_decodeBmp_of_indices hc hi
  refine ⟨(decodeBmpDone m s).dst, hexec, fun x y hx hy => decodeBmpDone_pixel m hc.depth hx hy,
    exec_decodeBmp_dst_outside hexec, toNat_ofNat_of_le ?_⟩
  have hdst : o + 4 * W * H ≤ s.dstLen := hc.dst
  rw [Nat.mul_assoc] at hdst
  omega

/-- Settles O32: DECODE_BMP's checks in their order, each with those before it passed. -/
theorem decodeBmpTraps : Obligations.DecodeBmpTraps := by
  intro s m d W H w pixelsFit maskFits
  refine ⟨fun hd => ?_, fun hd hpix => ?_, fun hd hpix hm hmask => ?_, fun hd hpix hmask hdst => ?_⟩
  · exact State.require_neg _ _ _ hd
  · exact (State.require_pos _ _ _ hd).trans (State.require_neg _ _ _ hpix)
  · exact (State.require_pos _ _ _ hd).trans ((State.require_pos _ _ _ hpix).trans
      (State.require_neg _ _ _ fun h => hmask (h hm)))
  · exact (State.require_pos _ _ _ hd).trans ((State.require_pos _ _ _ hpix).trans
      ((State.require_pos _ _ _ hmask).trans (State.require_neg _ _ _ (Nat.not_le.mpr hdst))))

/-- Settles O33: the answer is the scrambled DST with the error raised, and R85's region bounds the scrambling. -/
theorem decodeBmpIndexRangeLeavesDstOpen : Obligations.DecodeBmpIndexRangeLeavesDstOpen := by
  intro s m x y W H o hc hx hy hi
  have hexec := exec_decodeBmp_of_index_outside hc hx hy hi
  refine ⟨_, hexec.trans ?_, exec_decodeBmp_dst_outside hexec⟩
  cases m <;> rfl

/-! ## Agreement with LOOKUP -/

/-- The low three bytes of RESULT of LOOKUP (R122). -/
theorem extractLsb_channels (a b g r : Byte) :
    (a ++ b ++ g ++ r).extractLsb 7 0 = r ∧ (a ++ b ++ g ++ r).extractLsb 15 8 = g ∧
      (a ++ b ++ g ++ r).extractLsb 23 16 = b := by
  have hr := r.isLt
  have hg := g.isLt
  have hb := b.isLt
  simp only [← BitVec.toNat_inj, BitVec.extractLsb_toNat, toNat_append_byte, Nat.shiftRight_eq_div_pow]
  omega

theorem exec_lookup_of_lt (h : s.argByte.toNat < s.regs.palLen.toNat) :
    exec .lookup s = .next (s.setResult (s.palRead s.argByte.toNat).packed).drawn :=
  State.require_pos _ _ _ h

theorem State.toNat_argByte (h : s.regs.arg.toNat < 256) : s.argByte.toNat = s.regs.arg.toNat := by
  rw [State.argByte, BitVec.extractLsb'_toNat, Nat.shiftRight_zero, Nat.mod_eq_of_lt h]

/-- Settles O34: an index fits ARG's low byte, and both commands read the entry in the state before. -/
theorem decodeBmpAgreesWithLookup : Obligations.DecodeBmpAgreesWithLookup := by
  intro s t m x y arg hs h ht hx hy harg
  obtain ⟨hc, hi, rfl⟩ := exec_decodeBmp_completed h ht
  have hlen := (State.bmpIndices_lt_iff hc.depth).mp hi x y hx hy
  have h256 : s.bmpIndexAt x y < 256 := field_lt_256 _ _ _
  rw [← harg] at hlen h256
  have hbyte := State.toNat_argByte (s := { s with regs := { s.regs with arg := arg } }) h256
  refine ⟨_, exec_lookup_of_lt (by rw [hbyte]; exact hlen), hs, ?_⟩
  rw [hbyte]
  obtain ⟨hr, hg, hb, ha⟩ := decodeBmpDone_pixel m hc.depth hx hy
  obtain ⟨er, eg, eb⟩ := extractLsb_channels (s.palRead arg.toNat).a (s.palRead arg.toNat).b
    (s.palRead arg.toNat).g (s.palRead arg.toNat).r
  rw [← Color.ofNat_packed] at er eg eb
  rw [← harg] at hr hg hb
  exact ⟨hr.trans er.symm, hg.trans eg.symm, hb.trans eb.symm, ha⟩

end Sys2Proof.Machine
end

section
/-! SUPPORT. The round trip of the BMP palette indexer: a grid that PINDEX indexed is decoded to its own colors
(`41_bmp_palette.md` R128; `42_palette_indexer.md` R141). -/

namespace Sys2Proof.Machine

variable {s t : State}

/-! ## The index and the entry of a grid pixel -/

theorem getElem?_pindexPixels {p : Nat} (hp : p < s.gridSize) : s.pindexPixels[p]? = some (s.gridPixel p) := by
  rw [State.gridSize] at hp
  rw [State.pindexPixels, State.gridPixels, List.getElem?_map, List.getElem?_range hp]
  rfl

/-- The index that PINDEX writes for a pixel names an entry of that pixel's color (R141). -/
theorem pindexDone_entry {p : Nat} (hk : (scanPalette [] s.pindexPixels).1.length ≤ 256) (hp : p < s.gridSize) :
    ((pindexDone s).dst.read (s.regs.dstAddr.toNat + p)).toNat < (scanPalette [] s.pindexPixels).1.length ∧
    (pindexDone s).pal.entry? ((pindexDone s).dst.read (s.regs.dstAddr.toNat + p)).toNat =
      some (s.gridPixel p) := by
  obtain ⟨hlen, hpix⟩ := List.getElem?_eq_some_iff.mp (getElem?_pindexPixels hp)
  have hindex := scanPalette_index [] s.pindexPixels p hlen
  rw [hpix] at hindex
  have hj : p < (scanPalette [] s.pindexPixels).2.length := by rwa [scanPalette_length]
  obtain ⟨hlt, hcolor⟩ := List.getElem?_eq_some_iff.mp hindex
  have hread : (pindexDone s).dst.read (s.regs.dstAddr.toNat + p) =
      indexByte (scanPalette [] s.pindexPixels).2[p] :=
    s.dst.read_writeBlock_of_getElem? _ (by rw [List.getElem?_map, List.getElem?_eq_getElem hj]; rfl)
  rw [hread, indexByte_toNat (hlt.trans_le hk)]
  refine ⟨hlt, ?_⟩
  rw [← hcolor]
  exact s.pal.entry?_load_lt _ _ hlt (hlt.trans_le hk)

/-- A PINDEX that completes with a depth of 8 or less found at most 256 colors. -/
theorem exec_pindex_indexed (h : exec .pindex s = .next t) (he : t.regs.err = 0) (hd : t.regs.depth.toNat ≤ 8) :
    (scanPalette [] s.pindexPixels).1.length ≤ 256 ∧ t = pindexDone s := by
  rcases execPindex_cases h with ⟨e, rfl⟩ | ⟨-, -, hdone | ⟨-, rfl⟩⟩
  · exact absurd he e.code_ne_zero
  · exact hdone
  · exact absurd (show 24 ≤ 8 from hd) (by decide)

/-- PINDEX's PAL_LEN is the exact number of colors. -/
theorem pindexDone_palLen (hk : (scanPalette [] s.pindexPixels).1.length ≤ 256) :
    (pindexDone s).regs.palLen.toNat = (scanPalette [] s.pindexPixels).1.length :=
  toNat_ofNat_of_le hk (by decide)

/-! ## Loading and decoding -/

/-- The checks of DECODE_BMP read no register that PLOAD_BMP writes. -/
theorem BmpChecks.after_ploadBmp {m : Bool} {u : State} (h : BmpChecks m u) : BmpChecks m (ploadBmpDone u) :=
  ⟨h.depth, h.pixels, h.mask, h.dst⟩

/-- PLOAD_BMP leaves the indices that DECODE_BMP maps below PAL_LEN: it never lowers it. -/
theorem lt_palLen_ploadBmpDone {u : State} {i : Nat} (hd : validDepth u.regs.depth.toNat)
    (hi : i < u.regs.palLen.toNat) : i < (ploadBmpDone u).regs.palLen.toNat :=
  (hi.trans_le u.palLen_le_colorCount).trans_eq (State.toNat_ofNat_colorCount hd).symm

/-- A pixel decoded after PLOAD_BMP has the colors that SRC holds for its index in BGR order (R121, R126). -/
theorem ploadBmpDone_pixel {u : State} {x y : Nat} (hd : validDepth u.regs.depth.toNat)
    (hx : x < u.regs.width.toNat) (hy : y < u.regs.height.toNat) (hi : u.bmpIndexAt x y < u.regs.palLen.toNat) :
    (decodeBmpDone false (ploadBmpDone u)).dst.read (u.bmpPixelAddr x y) =
      u.srcByte (u.regs.palAddr.toNat + 4 * u.bmpIndexAt x y + 2) ∧
    (decodeBmpDone false (ploadBmpDone u)).dst.read (u.bmpPixelAddr x y + 1) =
      u.srcByte (u.regs.palAddr.toNat + 4 * u.bmpIndexAt x y + 1) ∧
    (decodeBmpDone false (ploadBmpDone u)).dst.read (u.bmpPixelAddr x y + 2) =
      u.srcByte (u.regs.palAddr.toNat + 4 * u.bmpIndexAt x y) ∧
    (decodeBmpDone false (ploadBmpDone u)).dst.read (u.bmpPixelAddr x y + 3) = 255 := by
  have hentry := ploadBmpDone_entry? (hi.trans_le u.palLen_le_colorCount) (field_lt_256 _ _ _)
  have hread : (ploadBmpDone u).palRead ((ploadBmpDone u).bmpIndexAt x y) =
      u.bgrxAt (u.regs.palAddr.toNat + 4 * u.bmpIndexAt x y) := State.palRead_of_entry? hentry
  have hpixel := decodeBmpDone_pixel (s := ploadBmpDone u) false hd hx hy
  rw [hread] at hpixel
  exact hpixel

/-- Settles O39: PINDEX's index of a pixel names its color in the palette, which PLOAD_BMP loads back and DECODE_BMP
reads at that index. -/
theorem indexedGridDecodesBack : Obligations.IndexedGridDecodesBack := by
  intro s t u _ h he hdepth W H hw hh _ hlen hpal hindex hsrc hc
  obtain ⟨hk, rfl⟩ := exec_pindex_indexed h he hdepth
  have hW : u.regs.width.toNat = W := congrArg BitVec.toNat hw
  have hH : u.regs.height.toNat = H := congrArg BitVec.toNat hh
  rw [← hW, ← hH] at hindex ⊢
  have entry {x y : Nat} (hx : x < u.regs.width.toNat) (hy : y < u.regs.height.toNat) :
      u.bmpIndexAt x y < (pindexDone s).regs.palLen.toNat ∧
      (pindexDone s).pal.entry? (u.bmpIndexAt x y) = some (s.gridPixel (y * u.regs.width.toNat + x)) := by
    rw [hindex x y hx hy, pindexDone_palLen hk]
    refine pindexDone_entry hk ?_
    rw [State.gridSize, ← hw, ← hh]
    exact position_lt hx hy
  rw [← hlen] at entry hpal
  refine ⟨ploadBmpDone u, _, exec_ploadBmp_of_checks hc.depth hsrc,
    exec_decodeBmp_of_indices hc.after_ploadBmp fun x y hx hy => lt_palLen_ploadBmpDone hc.depth (entry hx hy).1,
    rfl, fun x y hx hy => ?_⟩
  obtain ⟨hi, hcolor⟩ := entry hx hy
  obtain ⟨eb, eg, er⟩ := hpal _ _ hi hcolor
  obtain ⟨hr, hg, hb, ha⟩ := ploadBmpDone_pixel hc.depth hx hy hi
  exact ⟨hr.trans er, hg.trans eg, hb.trans eb, ha⟩

end Sys2Proof.Machine
end

section
/-! SUPPORT. The encode direction of the BMP palette indexer: the palette PINDEX finds, the indices it writes, its
traps, and the depth it selects (`42_palette_indexer.md` R140 to R144). -/

namespace Sys2Proof.Machine

variable {s t : State} {p j : Nat}

/-! ## The palette found -/

/-- The colors PINDEX finds, in first-seen order. -/
abbrev State.pindexPalette (s : State) : List Color := (scanPalette [] s.pindexPixels).1

theorem State.nodup_pindexPalette (s : State) : s.pindexPalette.Nodup :=
  scanPalette_nodup [] s.pindexPixels List.nodup_nil

theorem State.length_pindexPalette (s : State) : s.pindexPalette.length = s.distinctColors :=
  length_scanPalette_nil s.pindexPixels

theorem State.mem_take_pindexPixels (hp : p ≤ s.gridSize) {c : Color} :
    c ∈ s.pindexPixels.take p ↔ ∃ q, q < p ∧ s.gridPixel q = c := by
  have htake : s.pindexPixels.take p = (List.range p).map s.gridPixel := by
    rw [State.gridSize] at hp
    rw [State.pindexPixels, State.gridPixels, ← List.map_take, List.take_range, min_eq_left hp]
    rfl
  simp [htake]

/-- Color `j` is that of a pixel `p` that has it first, and the colors before `j` are those of the pixels
before `p` (R141). -/
theorem State.pindexPalette_first_seen (hj : j < s.pindexPalette.length) :
    ∃ p, p < s.gridSize ∧ s.pindexPalette[j]? = some (s.gridPixel p) ∧
      s.gridPixel p ∉ s.pindexPalette.take j ∧
      ∀ c, c ∈ s.pindexPalette.take j ↔ ∃ q, q < p ∧ s.gridPixel q = c := by
  obtain ⟨p, hp, hcolor, hnew, hbefore⟩ := scanPalette_first_seen [] s.pindexPixels j (Nat.zero_le _) hj
  have hsize : p < s.gridSize := hp.trans_eq (length_pindexPixels s)
  have hpixel : s.pindexPixels[p] = s.gridPixel p :=
    (List.getElem_eq_iff hp).mpr (getElem?_pindexPixels hsize)
  rw [hpixel] at hcolor hnew
  refine ⟨p, hsize, by rw [List.getElem?_eq_getElem hj, hcolor], hnew, fun c => ?_⟩
  rw [hbefore, ← State.mem_take_pindexPixels hsize.le]
  simp

theorem Palette.entry?_load_eq_getElem? (pal : Palette) {cs : List Color} {i : Nat} (hi : i < cs.length)
    (h256 : i < 256) : (pal.load cs).entry? i = cs[i]? := by
  rw [pal.entry?_load_lt cs i hi h256, List.getElem?_eq_getElem hi]

/-- The colors that a load puts below entry `j` are the first `j` colors loaded. -/
theorem Palette.mem_take_iff_entry?_load (pal : Palette) {cs : List Color} (hj : j ≤ cs.length) (h256 : j ≤ 256)
    {c : Color} : c ∈ cs.take j ↔ ∃ i, i < j ∧ (pal.load cs).entry? i = some c := by
  have hentry : ∀ i, i < j → (pal.load cs).entry? i = (cs.take j)[i]? := fun i hi => by
    rw [pal.entry?_load_eq_getElem? (hi.trans_le hj) (hi.trans_le h256), List.getElem?_take_of_lt hi]
  rw [List.mem_iff_getElem?]
  constructor
  · rintro ⟨i, hi⟩
    have hij : i < j := (List.getElem?_eq_some_iff.mp hi).1.trans_le (List.length_take_le j cs)
    exact ⟨i, hij, (hentry i hij).trans hi⟩
  · rintro ⟨i, hij, hi⟩
    exact ⟨i, (hentry i hij).symm.trans hi⟩

/-! ## The depth selected -/

theorem toNat_ofNat_sel (k : Nat) : (BitVec.ofNat 32 (sel k)).toNat = sel k := by
  refine toNat_ofNat_of_le (len := 24) ?_ (by decide)
  unfold sel
  split_ifs <;> decide

theorem sel_of_lt {k : Nat} (h : 256 < k) : sel k = 24 := by
  rw [sel, if_neg (by omega), if_neg (by omega), if_neg (by omega)]

theorem ofNat_sel_of_le {k : Nat} (h : k ≤ 256) :
    BitVec.ofNat 32 (sel k) = if k ≤ 2 then 1 else if k ≤ 16 then 4 else 8 := by
  rw [sel, if_pos h]
  split_ifs <;> rfl

/-! ## The states PINDEX answers -/

theorem exec_pindex_of_le (h1 : s.srcOK s.regs.srcAddr.toNat (4 * s.gridSize))
    (h2 : s.dstOK s.regs.dstAddr.toNat s.gridSize) (hk : s.distinctColors ≤ 256) :
    exec .pindex s = .next (pindexDone s) :=
  (execPindex_of_checks h1 h2).trans (if_pos (s.length_pindexPalette.trans_le hk))

theorem exec_pindex_of_lt (h1 : s.srcOK s.regs.srcAddr.toNat (4 * s.gridSize))
    (h2 : s.dstOK s.regs.dstAddr.toNat s.gridSize) (hk : 256 < s.distinctColors) :
    exec .pindex s = .next (pindexTrueColor s) :=
  (execPindex_of_checks h1 h2).trans (if_neg (hk.trans_eq s.length_pindexPalette.symm).not_ge)

/-- The byte PINDEX writes for a pixel is the pixel's index: an index of at most 256 colors fits a byte. -/
theorem pindexDone_read_toNat (hk : s.distinctColors ≤ 256) (hp : p < (scanPalette [] s.pindexPixels).2.length) :
    ((pindexDone s).dst.read (s.regs.dstAddr.toNat + p)).toNat = (scanPalette [] s.pindexPixels).2[p] := by
  have hread : (pindexDone s).dst.read (s.regs.dstAddr.toNat + p) = indexByte (scanPalette [] s.pindexPixels).2[p] :=
    s.dst.read_writeBlock_of_getElem? _ (by rw [List.getElem?_map, List.getElem?_eq_getElem hp]; rfl)
  have hindex := scanPalette_index [] s.pindexPixels p (hp.trans_eq (scanPalette_length _ _))
  have hlt : (scanPalette [] s.pindexPixels).2[p] < s.pindexPalette.length :=
    (List.getElem?_eq_some_iff.mp hindex).1
  rw [hread, indexByte_toNat (hlt.trans_le (s.length_pindexPalette.trans_le hk))]

/-- Pixels of one color share one index: the palette lists no color twice. -/
theorem pindexDone_read_eq {q : Nat} (hk : s.distinctColors ≤ 256) (hp : p < s.gridSize) (hq : q < s.gridSize)
    (h : s.gridPixel p = s.gridPixel q) :
    (pindexDone s).dst.read (s.regs.dstAddr.toNat + p) = (pindexDone s).dst.read (s.regs.dstAddr.toNat + q) := by
  have hlen : s.pindexPalette.length ≤ 256 := s.length_pindexPalette.trans_le hk
  have color {r : Nat} (hr : r < s.gridSize) :
      s.pindexPalette[((pindexDone s).dst.read (s.regs.dstAddr.toNat + r)).toNat]? = some (s.gridPixel r) := by
    obtain ⟨hlt, hentry⟩ := pindexDone_entry hlen hr
    rw [← hentry]
    exact (s.pal.entry?_load_eq_getElem? hlt (hlt.trans_le hlen)).symm
  refine BitVec.eq_of_toNat_eq ((List.getElem?_inj (pindexDone_entry hlen hp).1 s.nodup_pindexPalette).mp ?_)
  rw [color hp, color hq, h]

/-- Every smaller index was given to an earlier pixel (R141). -/
theorem pindexDone_index_order (hk : s.distinctColors ≤ 256) (hp : p < s.gridSize)
    (hj : j < ((pindexDone s).dst.read (s.regs.dstAddr.toNat + p)).toNat) :
    ∃ q, q < p ∧ ((pindexDone s).dst.read (s.regs.dstAddr.toNat + q)).toNat = j := by
  have hpix : p < s.pindexPixels.length := hp.trans_eq (length_pindexPixels s).symm
  have hidx : p < (scanPalette [] s.pindexPixels).2.length := hpix.trans_eq (scanPalette_length _ _).symm
  rw [pindexDone_read_toNat hk hidx] at hj
  obtain ⟨q, hq, hindex⟩ := scanPalette_index_order [] s.pindexPixels p hpix j (Nat.zero_le _) hj
  exact ⟨q, hq, (pindexDone_read_toNat hk (hq.trans hidx)).trans hindex⟩

/-! ## The obligations -/

/-- Settles O35: the command answers `pindexDone`, whose indices name the colors of a palette without repeats. -/
theorem pindexFindsThePalette : Obligations.PindexFindsThePalette := by
  rintro s k N o hsrc hdst rfl hk
  have hexec := exec_pindex_of_le hsrc hdst hk
  have hlen := s.length_pindexPalette
  refine ⟨(pindexDone s).dst, (pindexDone s).pal, ?_, fun p hp => ?_, fun p q hp hq => pindexDone_read_eq hk hp hq,
    fun p j hp => pindexDone_index_order hk hp, fun i hi => ?_, exec_dst_outside hexec⟩
  · rw [hexec, ← ofNat_sel_of_le hk, ← hlen]
    rfl
  · rw [← hlen]
    exact pindexDone_entry (hlen.trans_le hk) hp
  · exact s.pal.entry?_load_ge _ i (hlen.trans_le hi)

/-- Settles O36: entry `j` is the `j`-th color found, and a load puts the first 256 colors. -/
theorem pindexTrueColorWritesNoIndices : Obligations.PindexTrueColorWritesNoIndices := by
  intro s N hsrc hdst hk
  refine ⟨s.pal.load s.pindexPalette, exec_pindex_of_lt hsrc hdst hk, fun j hj => ?_⟩
  have hlen : j < s.pindexPalette.length := hj.trans (hk.trans_eq s.length_pindexPalette.symm)
  obtain ⟨p, hp, hcolor, hnew, hbefore⟩ := s.pindexPalette_first_seen hlen
  have hbelow (c : Color) := s.pal.mem_take_iff_entry?_load hlen.le hj.le (c := c)
  refine ⟨p, hp, (s.pal.entry?_load_eq_getElem? hlen hj).trans hcolor, fun q hq => ?_, fun i hi => ?_⟩
  · have hmem : s.gridPixel q ∈ s.pindexPalette.take j := (hbefore _).mpr ⟨q, hq, rfl⟩
    exact ⟨fun heq => hnew (heq ▸ hmem), (hbelow _).mp hmem⟩
  · have hentry := s.pal.entry?_load_lt s.pindexPalette i (hi.trans hlen) (hi.trans hj)
    obtain ⟨q, hq, hpixel⟩ := (hbefore _).mp ((hbelow _).mpr ⟨i, hi, hentry⟩)
    exact ⟨q, hq, by rw [hentry, hpixel]⟩

/-- Settles O38: DEPTH is `sel` of the palette's length, which is the number of distinct colors. -/
theorem pindexDepthFollowsTheColorCount : Obligations.PindexDepthFollowsTheColorCount := by
  intro s t _ h he k
  have hlen : s.pindexPalette.length = k := s.length_pindexPalette
  show t.regs.depth.toNat = sel k ∧ _
  rcases execPindex_cases h with ⟨e, rfl⟩ | ⟨-, -, ⟨hk, rfl⟩ | ⟨hk, rfl⟩⟩
  · exact absurd he e.code_ne_zero
  · have hcount := pindexDone_palLen hk
    rw [← hlen, min_eq_left (hk.trans (by decide))]
    exact ⟨toNat_ofNat_sel _, hcount, hcount⟩
  · rw [← hlen, min_eq_right hk, sel_of_lt hk]
    exact ⟨rfl, rfl, rfl⟩

/-- Settles O37: PINDEX's checks in their order, both made before the scan. -/
theorem pindexTraps : Obligations.PindexTraps := by
  refine fun s => ⟨fun hsrc => ?_, fun hsrc hdst => ?_⟩
  · exact State.require_neg _ _ _ (Nat.not_le.mpr hsrc)
  · exact (State.require_pos _ _ _ hsrc).trans (State.require_neg _ _ _ (Nat.not_le.mpr hdst))

end Sys2Proof.Machine
end

section
/-! SUPPORT. bip device bitmaps: the binarizing threshold, the traps of HDR_BIP, the entries PLOAD_BIP loads and the
pixels DECODE_BIP writes (`43_bip.md` R160 to R167). -/

namespace Sys2Proof.Machine

variable {s t : State} {x y : Nat}

/-! ## The threshold and the BipColor byte -/

theorem bin_iff (v : Byte) : bin v = true ↔ 128 < v.toNat := decide_eq_true_iff

/-- Thresholding a binarized channel gives its bit back: 0xFF is above 128, and 0x00 is not (R160). -/
theorem bin_bin8 (v : Byte) : bin (bin8 v) = bin v := by
  rw [bin8]
  cases bin v <;> rfl

/-- The byte by the 16 values of its four bits (R166). -/
theorem bipByte_bits (c : Color) :
    (bipByte c).getLsbD 0 = bin c.r ∧ (bipByte c).getLsbD 1 = bin c.g ∧ (bipByte c).getLsbD 2 = bin c.b ∧
      (bipByte c).getLsbD 3 = bin c.a ∧ (bipByte c).extractLsb 7 4 = 0 := by
  unfold bipByte
  generalize bin c.r = r, bin c.g = g, bin c.b = b, bin c.a = a
  revert r g b a
  decide

/-- Settles O40: `bin8` and `bipByte` are made of `bin`, and `bin` is the comparison. -/
theorem thresholdAndBipColorByte : Obligations.ThresholdAndBipColorByte :=
  ⟨fun v => ⟨bin_iff v, if_congr (bin_iff v) rfl rfl, bin_bin8 v⟩, bipByte_bits⟩

/-! ## HDR_BIP -/

/-- Settles O42: the header is checked first, then the palette of the length it declares. -/
theorem hdrBipTraps : Obligations.HdrBipTraps := by
  intro s B pl
  have hpl : s.memRead (B + 0xC) 2 = pl := s.memRead_two _
  refine ⟨fun hhdr => State.require_neg _ _ _ (Nat.not_le.mpr hhdr), fun hhdr hpal => ?_⟩
  rw [← hpl] at hpal
  exact (State.require_pos _ _ _ hhdr).trans (State.require_neg _ _ _ (Nat.not_le.mpr hpal))

/-! ## PLOAD_BIP -/

theorem exec_ploadBip_of_check (h : s.srcOK s.regs.palAddr.toNat (4 * s.regs.palLen.toNat)) :
    exec .ploadBip s = .next (ploadBipDone s) := State.require_pos _ _ _ h

/-- An entry below the count and `PAL_CAP` holds the color of its SRC address. -/
theorem Palette.entry?_load_loadedColors (pal : Palette) (entryAt : Nat → Color) (p : Nat) {c i : Nat} (hi : i < c)
    (h256 : i < 256) : (pal.load (loadedColors entryAt p c)).entry? i = some (entryAt (p + 4 * i)) := by
  have hlen : i < (loadedColors entryAt p c).length := by
    rw [length_loadedColors]
    exact lt_min hi h256
  rw [← getElem_loadedColors entryAt p c i hlen]
  exact pal.entry?_load_lt _ i hlen h256

theorem Palette.entry?_load_loadedColors_of_le (pal : Palette) (entryAt : Nat → Color) (p : Nat) {c i : Nat}
    (hi : c ≤ i) : (pal.load (loadedColors entryAt p c)).entry? i = pal.entry? i := by
  refine pal.entry?_load_ge _ i ?_
  rw [length_loadedColors]
  exact (min_le_left _ _).trans hi

/-- Settles O43: the one check, and where it passes the command answers `ploadBipDone`. -/
theorem ploadBipLoadsBinarizedEntries : Obligations.PloadBipLoadsBinarizedEntries := by
  intro s p c
  refine ⟨fun hin => ⟨ploadBipDone s, exec_ploadBip_of_check hin, rfl, fun i hi h256 => ?_, fun i hi => ?_⟩,
    fun hout => State.require_neg _ _ _ (Nat.not_le.mpr hout)⟩
  · have hentry : (ploadBipDone s).pal.entry? i = some (s.rgbaAt (p + 4 * i)).binarized :=
      s.pal.entry?_load_loadedColors _ p hi h256
    exact ⟨State.palRead_of_entry? hentry, by rw [hentry]; rfl⟩
  · exact s.pal.entry?_load_loadedColors_of_le _ p hi

/-! ## The pixels of DECODE_BIP -/

theorem State.getElem?_bipIndices (hc : BipChecks s) (hx : x < s.regs.width.toNat) (hy : y < s.regs.height.toNat) :
    s.bipIndices[y * s.regs.width.toNat + x]? = some (s.bipIndexAt x y) :=
  s.getElem?_topDownIndices hc.depth hc.stride hx hy

/-- The mapped indices are in range iff every pixel's index is: padding plays no part (R165). -/
theorem State.bipIndices_lt_iff (hc : BipChecks s) {b : Nat} :
    (∀ i ∈ s.bipIndices, i < b) ↔
      ∀ x y, x < s.regs.width.toNat → y < s.regs.height.toNat → s.bipIndexAt x y < b :=
  forall_mem_iff_pixels s.bipIndexAt (s.length_topDownIndices hc.depth hc.stride) fun _ _ =>
    State.getElem?_bipIndices hc

/-- The DST byte of each pixel of a completed DECODE_BIP (R165, R166). -/
theorem decodeBipDone_pixel (hc : BipChecks s) (hx : x < s.regs.width.toNat) (hy : y < s.regs.height.toNat) :
    (decodeBipDone s).dst.read (s.regs.dstAddr.toNat + (y * s.regs.width.toNat + x)) =
      bipByte (s.palRead (s.bipIndexAt x y)) :=
  s.dst.read_writeBlock_of_getElem? _ (by rw [List.getElem?_map, State.getElem?_bipIndices hc hx hy]; rfl)

/-! ## DECODE_BIP -/

theorem exec_decodeBip_of_indices (hc : BipChecks s)
    (hi : ∀ x y, x < s.regs.width.toNat → y < s.regs.height.toNat → s.bipIndexAt x y < s.regs.palLen.toNat) :
    exec .decodeBip s = .next (decodeBipDone s) :=
  (execDecodeBip_of_checks hc).trans (if_pos ((State.bipIndices_lt_iff hc).mpr hi))

theorem exec_decodeBip_of_index_outside (hc : BipChecks s) (hx : x < s.regs.width.toNat)
    (hy : y < s.regs.height.toNat) (hi : s.regs.palLen.toNat ≤ s.bipIndexAt x y) :
    exec .decodeBip s =
      .next ((s.scrambleDst s.regs.dstAddr.toNat (s.regs.width.toNat * s.regs.height.toNat)).raise .indexRange
        (encode .decodeBip)) :=
  (execDecodeBip_of_checks hc).trans
    (if_neg fun h => hi.not_gt ((State.bipIndices_lt_iff hc).mp h x y hx hy))

/-- Settles O44: the checks and the indices hold, so the command answers `decodeBipDone`. -/
theorem decodeBipWritesThePixels : Obligations.DecodeBipWritesThePixels := by
  intro s W H o hc hi
  have hexec := exec_decodeBip_of_indices hc hi
  exact ⟨(decodeBipDone s).dst, hexec, fun x y hx hy => decodeBipDone_pixel hc hx hy, exec_dst_outside hexec,
    toNat_ofNat_of_le (le_of_add_le_right hc.dst)⟩

/-- Settles O46: the answer is the scrambled DST with the error raised, and R85's region bounds the scrambling. -/
theorem decodeBipIndexRangeLeavesDstOpen : Obligations.DecodeBipIndexRangeLeavesDstOpen := by
  intro s x y W H o hc hx hy hi
  have hexec := exec_decodeBip_of_index_outside hc hx hy hi
  exact ⟨_, hexec, exec_dst_outside hexec⟩

/-! ## The traps of DECODE_BIP -/

theorem ErrorCode.code_ne_four (e : ErrorCode) (he : e ≠ .strideMismatch) : e.code ≠ 4 := by
  revert he
  cases e <;> decide

/-- DECODE_BIP changes ERR to 4 at its stride check alone: every other check and the rows raise another error. -/
theorem exec_decodeBip_err_eq_four_iff (hs : s.regs.err ≠ 4) (h : exec .decodeBip s = .next t) :
    t.regs.err = 4 ↔ validDepth s.regs.depth.toNat ∧ 0 < s.regs.height.toNat ∧
      bipRowLen s.regs.width.toNat s.regs.depth.toNat ≠ s.regs.stride.toNat := by
  rw [← Classical.not_imp (a := 0 < s.regs.height.toNat)]
  have hexec : execDecodeBip s = .next t := h
  simp only [execDecodeBip, State.require_next] at hexec
  rcases hexec with ⟨hd, ⟨hS, hrest⟩ | ⟨hS, rfl⟩⟩ | ⟨hd, rfl⟩
  · refine iff_of_false ?_ fun hn => hn.2 hS
    rcases hrest with ⟨hpix, ⟨hdst, -⟩ | ⟨-, rfl⟩⟩ | ⟨-, rfl⟩
    · rw [exec, execDecodeBip_of_checks ⟨hd, hS, hpix, hdst⟩] at h
      split_ifs at h <;> cases h
      · exact hs
      · exact ErrorCode.indexRange.code_ne_four nofun
    · exact ErrorCode.dstOverflow.code_ne_four nofun
    · exact ErrorCode.truncatedData.code_ne_four nofun
  · exact iff_of_true rfl ⟨hd, hS⟩
  · exact iff_of_false (ErrorCode.unsupportedDepth.code_ne_four nofun) fun hn => hd hn.1

/-- Settles O45: DECODE_BIP's checks in their order, each with those before it passed. -/
theorem decodeBipTraps : Obligations.DecodeBipTraps := by
  intro s d W H S strideFits rowsFit
  refine ⟨fun hd => ?_, fun hd hH hS => ?_, fun hd hS hpix => ?_, fun hd hS hpix hdst => ?_,
    fun t hs h => exec_decodeBip_err_eq_four_iff hs h⟩
  · exact State.require_neg _ _ _ hd
  · exact (State.require_pos _ _ _ hd).trans (State.require_neg _ _ _ fun h => hS (h hH))
  · exact (State.require_pos _ _ _ hd).trans ((State.require_pos _ _ _ hS).trans (State.require_neg _ _ _ hpix))
  · exact (State.require_pos _ _ _ hd).trans ((State.require_pos _ _ _ hS).trans
      ((State.require_pos _ _ _ hpix).trans (State.require_neg _ _ _ (Nat.not_le.mpr hdst))))

end Sys2Proof.Machine
end

section
/-! SUPPORT. Errors: what raising one writes, and what a command that faults changes (`60_exceptions.md` R200, R204,
R206). -/

namespace Sys2Proof.Machine

variable {s t : State} {i : Instr}

/-! ## What raising an error writes -/

/-- STATUS reads ERR in its low four bits and 0 above them. -/
theorem RegFile.toNat_statusWord (f : RegFile) : f.statusWord.toNat = f.err.toNat :=
  BitVec.toNat_setWidth_of_le (by decide)

/-- Settles O18: STATUS reads the code that `raise` writes, and the codes are R200's. -/
theorem raiseRecordsCodeAndWord : Obligations.RaiseRecordsCodeAndWord := by
  refine fun s w e => ⟨rfl, (s.raise e w).regs.toNat_statusWord.trans ?_⟩
  cases e <;> rfl

/-! ## What a command that faults changes -/

/-- A command that sets ERR raises an error on the state as it was; or it is a decode that raises IndexRange once its
DST region is open (R204, R206). -/
theorem exec_faulted_cases (hs : s.regs.err = 0) (h : exec i s = .next t) (ht : t.regs.err ≠ 0) :
    (∃ e, t = s.raise e (encode i)) ∨
    (((∃ m, i = .decodeBmp m) ∨ i = .decodeBip) ∧
      t = (s.scrambleDst (dstRegion i s).1 (dstRegion i s).2).raise .indexRange (encode i)) := by
  rcases exec_cases h with hraise | ⟨-, herr, -⟩ | ⟨hi, -, hopen⟩
  · exact .inl hraise
  · exact absurd (herr.trans hs) ht
  · exact .inr ⟨hi, hopen⟩

/-- Settles O50: a fault raises on the old state, or on the old state with its DST region open, which alone can
differ. -/
theorem faultsArePreciseButForDst : Obligations.FaultsArePreciseButForDst := by
  intro i s t hs h ht
  have houtside := exec_dst_outside h
  rcases exec_faulted_cases hs h ht with ⟨e, rfl⟩ | ⟨hi, rfl⟩
  · exact .inl rfl
  · refine .inr ⟨?_, rfl, rfl, houtside⟩
    rcases hi with ⟨_ | _, rfl⟩ | rfl
    · exact .inl rfl
    · exact .inr (.inl rfl)
    · exact .inr (.inr rfl)

end Sys2Proof.Machine
end
